-- ==== Sys2Proof/Word.lean ====
section
/-! DEFINITION. The word types of the machine (spec/00_scope.md R6, R8). -/

namespace Sys2Proof

/-- A 16-bit value: a register, an instruction word, an extension word or a byte address (R6). -/
abbrev Word := BitVec 16

/-- One byte of memory (R50). -/
abbrev Byte := BitVec 8

/-- A register index 0 to 15 (R20), as the encoding holds it (R81, R82). -/
abbrev Reg := BitVec 4

/-- Register 0, the program counter (R21). -/
abbrev Reg.pc : Reg := 0#4

/-- Register 1, the stack pointer (R23). -/
abbrev Reg.sp : Reg := 1#4

/-- Register 2, the status register (R24). -/
abbrev Reg.sr : Reg := 2#4

/-- Register 3, the constant-generator source (R25). -/
abbrev Reg.cg : Reg := 3#4

end Sys2Proof
end

