-- ==== Sys2Proof/Syntax.lean ====
section
/-! DEFINITION. The instructions: one constructor of `Instr` per row of spec/opcode_table.json (30_encoding.md R81 to R97). -/

namespace Sys2Proof

/-- The operating width of an instruction, its BW bit (R81, R153). -/
inductive Width where
  | word | byte
  deriving DecidableEq, Repr

/-- The six literals of the constant generator (R92). -/
inductive Constant where
  | zero | one | two | minusOne | four | eight
  deriving DecidableEq, Repr

/-- A source operand, or the sole operand of a single-operand instruction (R90, R93), with the extension word it consumes (R94). -/
inductive Src where
  /-- Register mode (R123). -/
  | reg (r : Reg)
  /-- Indexed mode: symbolic for register 0, absolute for register 2 (R124). -/
  | indexed (r : Reg) (x : Word)
  /-- Indirect-Register mode (R125). -/
  | indirect (r : Reg)
  /-- Indirect-Autoincrement mode (R126). -/
  | autoinc (r : Reg)
  /-- Immediate mode (R127). -/
  | imm (n : Word)
  /-- Constant mode: the constant generator (R128). -/
  | const (c : Constant)
  deriving DecidableEq, Repr

/-- A two-operand destination (R91), with the extension word it consumes (R94). -/
inductive Dst where
  /-- Register mode (R131, Ad = 0). -/
  | reg (r : Reg)
  /-- The Indexed family: symbolic for register 0, absolute for register 2 (R131, Ad = 1). -/
  | indexed (r : Reg) (x : Word)
  deriving DecidableEq, Repr

/-- The 27 mnemonics (R85, R86, R88). -/
inductive Mnemonic where
  | mov | add | addc | subc | sub | cmp | dadd | bit | bic | bis | xor | and
  | rrc | swpb | rra | sxt | push | call | reti
  | jne | jeq | jnc | jc | jn | jge | jl | jmp
  deriving DecidableEq, Repr

/-- The formats of R80, and the undefined words of R97. -/
inductive Format where
  | twoOperand | singleOperand | jump | undefined
  deriving DecidableEq, Repr

/-- An instruction as decoded: the fields of its word (R81 to R83) and the extension words of its operands (R94, R95). -/
inductive Instr where
  | mov (w : Width) (src : Src) (dst : Dst)
  | add (w : Width) (src : Src) (dst : Dst)
  | addc (w : Width) (src : Src) (dst : Dst)
  | subc (w : Width) (src : Src) (dst : Dst)
  | sub (w : Width) (src : Src) (dst : Dst)
  | cmp (w : Width) (src : Src) (dst : Dst)
  | dadd (w : Width) (src : Src) (dst : Dst)
  | bit (w : Width) (src : Src) (dst : Dst)
  | bic (w : Width) (src : Src) (dst : Dst)
  | bis (w : Width) (src : Src) (dst : Dst)
  | xor (w : Width) (src : Src) (dst : Dst)
  | and (w : Width) (src : Src) (dst : Dst)
  | rrc (w : Width) (op : Src)
  | swpb (w : Width) (op : Src)
  | rra (w : Width) (op : Src)
  | sxt (w : Width) (op : Src)
  | push (w : Width) (op : Src)
  | call (w : Width) (op : Src)
  | reti (w : Width) (op : Src)
  | jne (off : BitVec 10)
  | jeq (off : BitVec 10)
  | jnc (off : BitVec 10)
  | jc (off : BitVec 10)
  | jn (off : BitVec 10)
  | jge (off : BitVec 10)
  | jl (off : BitVec 10)
  | jmp (off : BitVec 10)
  /-- The row 0x0000 mask 0xF000: an undefined word with top nibble 0 (R97). -/
  | undefined0 (low : BitVec 12)
  /-- The row 0x1380 mask 0xFF80: undefined words 0x1380 to 0x13FF (R87, R97). -/
  | undefined1380 (low : BitVec 7)
  /-- The row 0x1400 mask 0xFC00: undefined words 0x1400 to 0x17FF (R87, R97). -/
  | undefined1400 (low : BitVec 10)
  /-- The row 0x1800 mask 0xF800: undefined words 0x1800 to 0x1FFF (R87, R97). -/
  | undefined1800 (low : BitVec 11)
  deriving DecidableEq, Repr

/-- The operands of an instruction by its format (R81 to R83): two with a width, one with a width, or none. -/
inductive Shape where
  | two (w : Width) (src : Src) (dst : Dst)
  | one (w : Width) (op : Src)
  | none
  deriving DecidableEq, Repr

end Sys2Proof
end

