-- ==== Sys2Proof/WellFormed.lean ====
section
/-! DEFINITION. Which operands an encoding exists for: the blank places of the mode table (spec/30_encoding.md R90, R91, R93). -/

namespace Sys2Proof

/-- The operand stands in the mode table of R90: register 3 is always a constant, register 2 has no indirect mode, and
register 0 with As = 11 is Immediate. -/
def Src.wf : Src → Bool
  | .reg r => r != Reg.cg
  | .indexed r _ => r != Reg.cg
  | .indirect r => r != Reg.sr && r != Reg.cg
  | .autoinc r => r != Reg.pc && r != Reg.sr && r != Reg.cg
  | .imm _ => true
  | .const _ => true

/-- Every destination field is an encoding (R85, R91): the constant generator never applies to a destination. -/
def Dst.wf : Dst → Bool
  | .reg _ => true
  | .indexed _ _ => true

/-- An instruction is well formed when its operands are; no other field of a word is reserved (R99). -/
def Instr.wf : Instr → Bool
  | .mov _ src dst | .add _ src dst | .addc _ src dst | .subc _ src dst
  | .sub _ src dst | .cmp _ src dst | .dadd _ src dst | .bit _ src dst
  | .bic _ src dst | .bis _ src dst | .xor _ src dst | .and _ src dst => src.wf && dst.wf
  | .rrc _ op | .swpb _ op | .rra _ op | .sxt _ op | .push _ op | .call _ op | .reti _ op => op.wf
  | .jne _ | .jeq _ | .jnc _ | .jc _ | .jn _ | .jge _ | .jl _ | .jmp _ => true
  | .undefined0 _ | .undefined1380 _ | .undefined1400 _ | .undefined1800 _ => true

end Sys2Proof
end

