-- ==== Sys2Proof/Decode.lean ====
section
/-! DEFINITION. The decoder (spec/30_encoding.md R80 to R97) and the encoder written from the same tables. -/

namespace Sys2Proof

/-! ## Fields and tables -/

/-- Bits `lo + n - 1` down to `lo` of an instruction word (R8). -/
def field (w : Word) (lo n : Nat) : BitVec n := w.extractLsb' lo n

/-- The BW bit (R81). -/
def widthOfBit (b : BitVec 1) : Width := if b = 1#1 then .byte else .word

/-- The BW bit of a width (R81). -/
def Width.bw : Width → BitVec 1
  | .word => 0#1
  | .byte => 1#1

/-- The literal of a constant-generator cell (R92, the CGTable of R128). -/
def Constant.literal : Constant → Word
  | .zero => 0x0000#16
  | .one => 0x0001#16
  | .two => 0x0002#16
  | .minusOne => 0xFFFF#16
  | .four => 0x0004#16
  | .eight => 0x0008#16

/-- The register field of a constant-generator cell (R92). -/
def Constant.regField : Constant → Reg
  | .zero | .one | .two | .minusOne => Reg.cg
  | .four | .eight => Reg.sr

/-- The addressing bits of a constant-generator cell (R92). -/
def Constant.asField : Constant → BitVec 2
  | .zero => 0b00#2
  | .one => 0b01#2
  | .two => 0b10#2
  | .minusOne => 0b11#2
  | .four => 0b10#2
  | .eight => 0b11#2

/-! ## Operand fields -/

/-- The mode table of R90 (and R93 for the sole operand of a single-operand instruction): the mode is a function of the
addressing bits and the register. `x` is the extension word the mode takes, if it takes one (R94). -/
def decodeSrc (r : Reg) (as : BitVec 2) (x : Word) : Src :=
  if r = Reg.cg then
    match as with
    | 0b00#2 => .const .zero
    | 0b01#2 => .const .one
    | 0b10#2 => .const .two
    | 0b11#2 => .const .minusOne
  else if r = Reg.sr then
    match as with
    | 0b00#2 => .reg r
    | 0b01#2 => .indexed r x
    | 0b10#2 => .const .four
    | 0b11#2 => .const .eight
  else
    match as with
    | 0b00#2 => .reg r
    | 0b01#2 => .indexed r x
    | 0b10#2 => .indirect r
    | 0b11#2 => if r = Reg.pc then .imm x else .autoinc r

/-- The destination table of R91. -/
def decodeDst (r : Reg) (ad : BitVec 1) (x : Word) : Dst := if ad = 1#1 then .indexed r x else .reg r

/-- How many extension words a source operand's fields call for: one for Indexed and Immediate, else none (R94). -/
def srcExtCount (r : Reg) (as : BitVec 2) : Nat :=
  if r = Reg.cg then 0
  else if as = 0b01#2 then 1
  else if as = 0b11#2 ∧ r = Reg.pc then 1
  else 0

/-- How many extension words a destination's fields call for (R94). -/
def dstExtCount (ad : BitVec 1) : Nat := if ad = 1#1 then 1 else 0

/-- How many extension words follow an instruction word: a function of that word alone (R94, R96). -/
def extCount (w : Word) : Nat :=
  if 0x4#4 ≤ field w 12 4 then srcExtCount (field w 8 4) (field w 4 2) + dstExtCount (field w 7 1)
  else if field w 12 4 = 0x1#4 ∧ field w 7 9 ≤ 0x026#9 then srcExtCount (field w 0 4) (field w 4 2)
  else 0

/-! ## Classification (R84) -/

/-- The source operand of a two-operand word (R81, R90); `x1` is the first word after it. -/
def twoOperandSrc (w x1 : Word) : Src := decodeSrc (field w 8 4) (field w 4 2) x1

/-- The destination operand of a two-operand word (R81, R91): its extension word comes after the source's (R95). -/
def twoOperandDst (w x1 x2 : Word) : Dst :=
  decodeDst (field w 0 4) (field w 7 1) (if srcExtCount (field w 8 4) (field w 4 2) = 0 then x1 else x2)

/-- Top nibble 0x1: the seven single-operand ranges (R86) and the undefined words above them (R87). -/
def decodeSingle (w x1 : Word) : Instr :=
  let bw := widthOfBit (field w 6 1)
  let op := decodeSrc (field w 0 4) (field w 4 2) x1
  match field w 7 9 with
  | 0x020#9 => .rrc bw op
  | 0x021#9 => .swpb bw op
  | 0x022#9 => .rra bw op
  | 0x023#9 => .sxt bw op
  | 0x024#9 => .push bw op
  | 0x025#9 => .call bw op
  | 0x026#9 => .reti bw op
  | 0x027#9 => .undefined1380 (field w 0 7)
  | _ => if field w 11 1 = 1#1 then .undefined1800 (field w 0 11) else .undefined1400 (field w 0 10)

/-- Top nibble 0x2 or 0x3: the eight jumps by their condition selector (R83, R88). -/
def decodeJump (w : Word) : Instr :=
  let off := field w 0 10
  match field w 10 3 with
  | 0b000#3 => .jne off
  | 0b001#3 => .jeq off
  | 0b010#3 => .jnc off
  | 0b011#3 => .jc off
  | 0b100#3 => .jn off
  | 0b101#3 => .jge off
  | 0b110#3 => .jl off
  | 0b111#3 => .jmp off

/-- The instruction an instruction word stands for, given the two words that follow it (R84, R85). The last case is R84's
"any value not covered above", which is top nibble 0x0. -/
def decodeWords (w x1 x2 : Word) : Instr :=
  let bw := widthOfBit (field w 6 1)
  let src := twoOperandSrc w x1
  let dst := twoOperandDst w x1 x2
  match field w 12 4 with
  | 0x1#4 => decodeSingle w x1
  | 0x2#4 => decodeJump w
  | 0x3#4 => decodeJump w
  | 0x4#4 => .mov bw src dst
  | 0x5#4 => .add bw src dst
  | 0x6#4 => .addc bw src dst
  | 0x7#4 => .subc bw src dst
  | 0x8#4 => .sub bw src dst
  | 0x9#4 => .cmp bw src dst
  | 0xA#4 => .dadd bw src dst
  | 0xB#4 => .bit bw src dst
  | 0xC#4 => .bic bw src dst
  | 0xD#4 => .bis bw src dst
  | 0xE#4 => .xor bw src dst
  | 0xF#4 => .and bw src dst
  | _ => .undefined0 (field w 0 12)

/-- The word stored as two bytes, low byte first (R57). -/
def wordOfBytes (lo hi : Byte) : Word := hi ++ lo

/-- Why the decoder refuses a byte string: it ends inside an instruction. Every instruction word itself has a reading, the
undefined words of R97 among them. -/
inductive DecodeError where
  /-- Fewer than two bytes: no instruction word (R80). -/
  | noInstructionWord
  /-- The instruction word calls for more extension words than the bytes hold (R94, R96). -/
  | noExtensionWord
  deriving DecidableEq, Repr

/-- Decode the instruction at the head of a byte string, little-endian (R57, R80), and return the bytes after it. -/
def decode : List Byte → Except DecodeError (Instr × List Byte)
  | b0 :: b1 :: rest =>
    let w := wordOfBytes b0 b1
    match extCount w with
    | 0 => .ok (decodeWords w 0#16 0#16, rest)
    | 1 =>
      match rest with
      | c0 :: c1 :: rest => .ok (decodeWords w (wordOfBytes c0 c1) 0#16, rest)
      | _ => .error .noExtensionWord
    | _ =>
      match rest with
      | c0 :: c1 :: d0 :: d1 :: rest => .ok (decodeWords w (wordOfBytes c0 c1) (wordOfBytes d0 d1), rest)
      | _ => .error .noExtensionWord
  | _ => .error .noInstructionWord

/-- The longest instruction has three words (R96). -/
def maxInstrBytes : Nat := 6

/-- The bytes of an instruction whose first `nbits` bits are those of `w`, numbered from bit 0 of the first word, and whose
further bits are zero: each word little-endian (R57), so the bytes run from the low end of `w`. -/
def tableBytes (nbits w : Nat) : List Byte :=
  (List.range maxInstrBytes).map fun k => BitVec.ofNat 8 (w % 2 ^ nbits / 256 ^ k)

/-- The instruction the decoder reads from a word numbered as spec/opcode_table.json numbers it. -/
def decodeTableWord (nbits w : Nat) : Option Instr :=
  match decode (tableBytes nbits w) with
  | .ok (i, _) => some i
  | .error _ => none

/-! ## The encoder -/

/-- The register field of a source operand (R90, R92). -/
def Src.regField : Src → Reg
  | .reg r | .indexed r _ | .indirect r | .autoinc r => r
  | .imm _ => Reg.pc
  | .const c => c.regField

/-- The addressing bits of a source operand (R90, R92). -/
def Src.asField : Src → BitVec 2
  | .reg _ => 0b00#2
  | .indexed _ _ => 0b01#2
  | .indirect _ => 0b10#2
  | .autoinc _ | .imm _ => 0b11#2
  | .const c => c.asField

/-- The extension words of a source operand (R94). -/
def Src.ext : Src → List Word
  | .indexed _ x | .imm x => [x]
  | .reg _ | .indirect _ | .autoinc _ | .const _ => []

/-- The register field of a destination (R91). -/
def Dst.regField : Dst → Reg
  | .reg r | .indexed r _ => r

/-- The Ad bit of a destination (R91). -/
def Dst.adField : Dst → BitVec 1
  | .reg _ => 0#1
  | .indexed _ _ => 1#1

/-- The extension words of a destination (R94). -/
def Dst.ext : Dst → List Word
  | .reg _ => []
  | .indexed _ x => [x]

/-- A two-operand instruction word: op, sreg, Ad, BW, As, dreg (R81). -/
def twoOperandWord (op : BitVec 4) (w : Width) (src : Src) (dst : Dst) : Word :=
  op ++ src.regField ++ dst.adField ++ w.bw ++ src.asField ++ dst.regField

/-- A single-operand instruction word: op9, BW, Ad, reg (R82). -/
def singleOperandWord (op : BitVec 9) (w : Width) (src : Src) : Word := op ++ w.bw ++ src.asField ++ src.regField

/-- A jump word: 0b001, cond, off (R83). -/
def jumpWord (cond : BitVec 3) (off : BitVec 10) : Word := 0b001#3 ++ cond ++ off

/-- The instruction word of an instruction (R85, R86, R88, R97). -/
def Instr.word : Instr → Word
  | .mov w src dst => twoOperandWord 0x4#4 w src dst
  | .add w src dst => twoOperandWord 0x5#4 w src dst
  | .addc w src dst => twoOperandWord 0x6#4 w src dst
  | .subc w src dst => twoOperandWord 0x7#4 w src dst
  | .sub w src dst => twoOperandWord 0x8#4 w src dst
  | .cmp w src dst => twoOperandWord 0x9#4 w src dst
  | .dadd w src dst => twoOperandWord 0xA#4 w src dst
  | .bit w src dst => twoOperandWord 0xB#4 w src dst
  | .bic w src dst => twoOperandWord 0xC#4 w src dst
  | .bis w src dst => twoOperandWord 0xD#4 w src dst
  | .xor w src dst => twoOperandWord 0xE#4 w src dst
  | .and w src dst => twoOperandWord 0xF#4 w src dst
  | .rrc w op => singleOperandWord 0x020#9 w op
  | .swpb w op => singleOperandWord 0x021#9 w op
  | .rra w op => singleOperandWord 0x022#9 w op
  | .sxt w op => singleOperandWord 0x023#9 w op
  | .push w op => singleOperandWord 0x024#9 w op
  | .call w op => singleOperandWord 0x025#9 w op
  | .reti w op => singleOperandWord 0x026#9 w op
  | .jne off => jumpWord 0b000#3 off
  | .jeq off => jumpWord 0b001#3 off
  | .jnc off => jumpWord 0b010#3 off
  | .jc off => jumpWord 0b011#3 off
  | .jn off => jumpWord 0b100#3 off
  | .jge off => jumpWord 0b101#3 off
  | .jl off => jumpWord 0b110#3 off
  | .jmp off => jumpWord 0b111#3 off
  | .undefined0 low => 0x0#4 ++ low
  | .undefined1380 low => 0x027#9 ++ low
  | .undefined1400 low => 0b000101#6 ++ low
  | .undefined1800 low => 0b00011#5 ++ low

/-- The operands of an instruction (R81 to R83). -/
def Instr.shape : Instr → Shape
  | .mov w src dst | .add w src dst | .addc w src dst | .subc w src dst
  | .sub w src dst | .cmp w src dst | .dadd w src dst | .bit w src dst
  | .bic w src dst | .bis w src dst | .xor w src dst | .and w src dst => .two w src dst
  | .rrc w op | .swpb w op | .rra w op | .sxt w op | .push w op | .call w op | .reti w op => .one w op
  | .jne _ | .jeq _ | .jnc _ | .jc _ | .jn _ | .jge _ | .jl _ | .jmp _ => .none
  | .undefined0 _ | .undefined1380 _ | .undefined1400 _ | .undefined1800 _ => .none

/-- The extension words of an instruction, the source's before the destination's (R94, R95). -/
def Instr.ext (i : Instr) : List Word :=
  match i.shape with
  | .two _ src dst => src.ext ++ dst.ext
  | .one _ op => op.ext
  | .none => []

/-- The words of an instruction (R80): its instruction word, then its extension words. -/
def encode (i : Instr) : List Word := i.word :: i.ext

/-- The bytes of a list of words, each low byte first (R57). -/
def bytesOfWords : List Word → List Byte
  | [] => []
  | w :: ws => w.extractLsb' 0 8 :: w.extractLsb' 8 8 :: bytesOfWords ws

/-- The length of an instruction in words (R96). -/
def Instr.length (i : Instr) : Nat := 1 + i.ext.length

/-- The mnemonic of an instruction (R85, R86, R88); an undefined word has none. -/
def Instr.mnemonic : Instr → Option Mnemonic
  | .mov _ _ _ => some .mov
  | .add _ _ _ => some .add
  | .addc _ _ _ => some .addc
  | .subc _ _ _ => some .subc
  | .sub _ _ _ => some .sub
  | .cmp _ _ _ => some .cmp
  | .dadd _ _ _ => some .dadd
  | .bit _ _ _ => some .bit
  | .bic _ _ _ => some .bic
  | .bis _ _ _ => some .bis
  | .xor _ _ _ => some .xor
  | .and _ _ _ => some .and
  | .rrc _ _ => some .rrc
  | .swpb _ _ => some .swpb
  | .rra _ _ => some .rra
  | .sxt _ _ => some .sxt
  | .push _ _ => some .push
  | .call _ _ => some .call
  | .reti _ _ => some .reti
  | .jne _ => some .jne
  | .jeq _ => some .jeq
  | .jnc _ => some .jnc
  | .jc _ => some .jc
  | .jn _ => some .jn
  | .jge _ => some .jge
  | .jl _ => some .jl
  | .jmp _ => some .jmp
  | .undefined0 _ => none
  | .undefined1380 _ => none
  | .undefined1400 _ => none
  | .undefined1800 _ => none

/-- The format of an instruction (R80, R84): exactly one of the three, or undefined. -/
def Instr.format : Instr → Format
  | .mov _ _ _ | .add _ _ _ | .addc _ _ _ | .subc _ _ _ | .sub _ _ _ | .cmp _ _ _
  | .dadd _ _ _ | .bit _ _ _ | .bic _ _ _ | .bis _ _ _ | .xor _ _ _ | .and _ _ _ => .twoOperand
  | .rrc _ _ | .swpb _ _ | .rra _ _ | .sxt _ _ | .push _ _ | .call _ _ | .reti _ _ => .singleOperand
  | .jne _ | .jeq _ | .jnc _ | .jc _ | .jn _ | .jge _ | .jl _ | .jmp _ => .jump
  | .undefined0 _ | .undefined1380 _ | .undefined1400 _ | .undefined1800 _ => .undefined

end Sys2Proof
end

