-- ==== Sys2Proof/Config.lean ====
section
/-! DEFINITION. What is fixed for the machine (spec/00_scope.md R6) and its one free value (10_state.md R30, R31). -/

namespace Sys2Proof.Config

/-- DESIGN CHOICE (log 3). FREE VALUE: the seven reserved bits of the status register after the n-th whole write of it (R30,
"any 7-bit value, chosen at this write"). It has no body, so nothing can be proved of the value. -/
opaque drawReserved : Nat → BitVec 7

/-- The highest address of the reserved I/O range, in which no instruction word may be fetched (R6, R60, R151). -/
def ioLimit : Word := 0x01FF#16

/-- The address of the reset vector (R6, R271). -/
def resetVector : Word := 0xFFFE#16

/-- Memory is 65,536 bytes (R6, R50). -/
def memorySize : Nat := 65536

/-- What a byte of memory that nothing has written reads as: memory is created zero-filled (R52). -/
def unlistedByte : Byte := 0#8

end Sys2Proof.Config
end

