-- ==== Sys2Proof/Machine/State.lean ====
section
/-! DEFINITION. The state of the machine (spec/10_state.md R20 to R38, 20_memory.md R50), its four faults (60_exceptions.md R240)
and its state after reset (70_reset_and_hazards.md R270, R271). -/

namespace Sys2Proof.Machine

/-- The four faults, a closed enumeration (R240). A fault is an effect the spec describes (R246): the step that raises one
answers a NEXT state whose run state is `dead` with the fault's record. No step answers `Host.Outcome.fault`. -/
inductive Fault where
  /-- Raised by decode for the words of R97 (R241). Safe: it is the spec's own effect. -/
  | undefinedOpcode
  /-- Raised by dispatch, after operand resolution, for the mnemonics of R98 (R242). Safe: it is the spec's own effect. -/
  | unimplementedOpcode
  /-- Raised by a word access to an odd address: fetch, operand read, CALL push (R243). Safe: it is the spec's own effect. -/
  | alignmentFault
  /-- Raised by an instruction fetch at or below 0x01FF (R244). Safe: it is the spec's own effect. -/
  | peripheralFetchFault
  deriving DecidableEq, Repr

/-- What the model turns away. No step answers one: each is a host operation outside its domain. -/
inductive Refusal where
  /-- An instruction without a meaning. No arm of `exec` answers it: every instruction has its meaning. Safe. -/
  | notModelled (mnemonic : String)
  /-- Raised by the loader: two segments share an address, so the launch has no meaning (R64). Safe. -/
  | segmentsOverlap
  /-- Raised by the loader: a segment runs past 0x10000 or past the end of the image (R64). Safe. -/
  | segmentOutOfRange
  /-- Raised by the inspection interface: a register index outside 0 to 15 (R11). Safe. -/
  | registerIndexOutOfRange (index : Nat)
  deriving DecidableEq, Repr

/-- The fault record (R247). -/
structure FaultRecord where
  /-- Which of the four faults. -/
  kind : Fault
  /-- The address of the instruction word: pc at the start of the step. -/
  pc : Word
  /-- The instruction word, absent for a fetch fault. -/
  word : Option Word
  /-- The mnemonic, present once decoded. -/
  mnemonic : Option Mnemonic
  /-- The odd address, for an alignment fault only. -/
  accessAddr : Option Word
  deriving DecidableEq, Repr

/-- The run state (R36). -/
inductive RunState where
  | running
  | dead (record : FaultRecord)
  deriving DecidableEq, Repr

/-- Memory: address and byte pairs, addresses strictly rising, no pair equal to what an unlisted address reads as (R50, R52). -/
abbrev Memory := List Host.Cell

/-- Everything the spec gives the machine (R20 to R38, R50), and the counter of the model's free value. -/
structure State where
  /-- The sixteen registers x[0] to x[15] (R20): x[0] is pc, x[1] is sp, x[2] is sr. -/
  regs : Vector Word 16
  /-- The 65,536 bytes of memory (R50). -/
  mem : Memory
  /-- Running, or dead with a fault record (R36). -/
  run : RunState
  /-- THE MODEL'S OWN (log 3): how many whole writes of sr have drawn reserved bits (R30), the index of the next draw. -/
  draws : Nat
  deriving DecidableEq, Repr

/-- The state after reset with no image attached (R270, R271): every register and every memory byte 0, and pc the word at the
reset vector, which no segment covers and so reads 0 (R273). `reset_eq_launch_empty` (Laws/Loader.lean) shows it is that reset. -/
def State.reset : State where
  regs := Vector.replicate 16 0#16
  mem := []
  run := .running
  draws := 0

end Sys2Proof.Machine
end

