-- ==== Sys2Proof/Machine/Ops.lean ====
section
/-! DEFINITION. The named operations over memory, registers, the program counter and the run state (spec/10_state.md,
20_memory.md, 60_exceptions.md R246, R247) and the fetch of an instruction (41_execution_engine.md R151). -/

namespace Sys2Proof.Machine

/-! ## Memory as data -/

/-- Addresses above `lo`, strictly rising, below the memory size, and no byte equal to the unlisted one. -/
def Memory.wfFrom (lo : Nat) : Memory → Bool
  | [] => true
  | (a, b) :: rest => lo ≤ a && a < Config.memorySize && b != Config.unlistedByte && Memory.wfFrom (a + 1) rest

/-- The canonical form: equal memories are equal lists. -/
def Memory.wf (m : Memory) : Bool := Memory.wfFrom 0 m

/-- The byte at an address: M[a], zero where nothing is listed (R52). -/
def Memory.get : Memory → Nat → Byte
  | [], _ => Config.unlistedByte
  | (b, v) :: rest, a => if b = a then v else Memory.get rest a

/-- Memory with no pair at `a`. -/
def Memory.erase (m : Memory) (a : Nat) : Memory := m.filter fun c => c.1 != a

/-- Memory with the pair (a, v) put in before the first higher address. -/
def Memory.insert : Memory → Nat → Byte → Memory
  | [], a, v => [(a, v)]
  | (b, w) :: rest, a, v => if a < b then (a, v) :: (b, w) :: rest else (b, w) :: Memory.insert rest a v

/-- M[a] <- v (R54), keeping the canonical form. -/
def Memory.set (m : Memory) (a : Nat) (v : Byte) : Memory :=
  if v = Config.unlistedByte then Memory.erase m a else Memory.insert (Memory.erase m a) a v

/-! ## Registers -/

/-- x[r] (R20, R8). -/
def State.reg (s : State) (r : Reg) : Word := s.regs[r.toNat]'(by omega)

/-- x[r] <- v for an index the block itself writes: pc, sp and an autoincremented register (R21, R23, R126), and a register
destination other than sr (R156). -/
def State.setReg (s : State) (r : Reg) (v : Word) : State := { s with regs := s.regs.set r.toNat v (by omega) }

/-- The program counter, x[0] (R21). -/
def State.pc (s : State) : Word := s.reg Reg.pc

/-- The stack pointer, x[1] (R23). -/
def State.sp (s : State) : Word := s.reg Reg.sp

/-- The status register as a word, x[2] (R32). -/
def State.sr (s : State) : Word := s.reg Reg.sr

/-- pc <- v (R8). -/
def State.setPc (s : State) (v : Word) : State := s.setReg Reg.pc v

/-- sp <- v (R23). -/
def State.setSp (s : State) (v : Word) : State := s.setReg Reg.sp v

/-- A whole write of sr (R30): bits 8:0 as written, bits 15:9 a fresh free value, which stands until the next whole write (R31). -/
def State.writeSr (s : State) (v : Word) : State :=
  { s.setReg Reg.sr (Config.drawReserved s.draws ++ v.extractLsb' 0 9) with draws := s.draws + 1 }

/-- A register written as a destination (R156): sr by a whole write (R30), any other by storing the value (R20, R25). -/
def State.writeReg (s : State) (r : Reg) (v : Word) : State := if r = Reg.sr then s.writeSr v else s.setReg r v

/-! ## Memory accessors (R53 to R56) -/

/-- An address, named as the odd address an `AlignmentFault` reports (R55). -/
abbrev OddAddress := Word

/-- The address is even (R55: addr[0] = 0). -/
def isEven (a : Word) : Bool := a.getLsbD 0 == false

/-- ReadByte: never faults (R53). -/
def State.readByte (s : State) (a : Word) : Byte := Memory.get s.mem a.toNat

/-- WriteByte: never faults (R54). -/
def State.writeByte (s : State) (a : Word) (v : Byte) : State := { s with mem := Memory.set s.mem a.toNat v }

/-- The two bytes at `a` and `a + 1` as a word, low byte first (R55, R57), before any check of alignment. -/
def State.wordAt (s : State) (a : Word) : Word := wordOfBytes (s.readByte a) (s.readByte (a + 1#16))

/-- ReadWord (R55). -/
def State.readWord (s : State) (a : Word) : Except OddAddress Word :=
  if isEven a then .ok (s.wordAt a) else .error a

/-- The two bytes of a word stored at `a` and `a + 1`, low byte first (R56, R57), before any check of alignment. -/
def State.setWordAt (s : State) (a v : Word) : State :=
  (s.writeByte a (v.extractLsb' 0 8)).writeByte (a + 1#16) (v.extractLsb' 8 8)

/-- WriteWord: a faulting one writes no byte (R56). -/
def State.writeWord (s : State) (a v : Word) : Except OddAddress State :=
  if isEven a then .ok (s.setWordAt a v) else .error a

/-! ## Widths (R8, R34, R62, R153) -/

/-- The operating width in bits (R153). -/
def widthBits : Width → Nat
  | .word => 16
  | .byte => 8

/-- The operating width in bytes (R62). -/
def widthBytes : Width → Nat
  | .word => 2
  | .byte => 1

/-- mask_w(v), held zero-extended in a word (R8, R34). -/
def maskW (w : Width) (v : Word) : Word :=
  match w with
  | .word => v
  | .byte => (v.extractLsb' 0 8).zeroExtend 16

/-- MemRead(addr, w/8), held zero-extended in a word (R8). -/
def State.memRead (w : Width) (s : State) (a : Word) : Except OddAddress Word :=
  match w with
  | .word => s.readWord a
  | .byte => .ok ((s.readByte a).zeroExtend 16)

/-- MemWrite(addr, w/8, v) (R8). -/
def State.memWrite (w : Width) (s : State) (a v : Word) : Except OddAddress State :=
  match w with
  | .word => s.writeWord a v
  | .byte => .ok (s.writeByte a (v.extractLsb' 0 8))

/-! ## The program counter -/

/-- pc <- (pc + 2) mod 2^16: the move an extension-word fetch makes (R122) and the Advance phase makes (R162). -/
def State.bumpPc (s : State) : State := s.setPc (s.pc + 2#16)

/-- The Advance phase, unless suppressed (R150, R162, R163). -/
def State.advance (suppress : Bool) (s : State) : State := if suppress then s else s.bumpPc

/-! ## Faults (R240 to R249) -/

/-- The numeric code the spec assigns a fault (R240, D20). -/
def Fault.code : Fault → Nat
  | .undefinedOpcode => 0
  | .unimplementedOpcode => 1
  | .alignmentFault => 2
  | .peripheralFetchFault => 3

/-- TAKING A FAULT, the one operation for all four (R246): nothing of the step is committed, and the run state becomes dead with
the record. There is no handler, no saved register, no mode change and no return (R245, R251). -/
def State.takeFault (s : State) (record : FaultRecord) : State := { s with run := .dead record }

/-- The record of an AlignmentFault after the instruction was decoded (R243, R247). -/
def State.alignmentRecord (s : State) (i : Instr) (a : OddAddress) : FaultRecord :=
  { kind := .alignmentFault, pc := s.pc, word := some i.word, mnemonic := i.mnemonic, accessAddr := some a }

/-- The record of an UnimplementedOpcode (R242, R247). -/
def State.unimplementedRecord (s : State) (i : Instr) : FaultRecord :=
  { kind := .unimplementedOpcode, pc := s.pc, word := some i.word, mnemonic := i.mnemonic, accessAddr := none }

/-- The record of an UndefinedOpcode: the mnemonic is absent, since nothing was decoded (R241, R247). -/
def State.undefinedRecord (s : State) (i : Instr) : FaultRecord :=
  { kind := .undefinedOpcode, pc := s.pc, word := some i.word, mnemonic := none, accessAddr := none }

/-- The record of a PeripheralFetchFault: no word was read (R244, R247). -/
def State.peripheralRecord (s : State) : FaultRecord :=
  { kind := .peripheralFetchFault, pc := s.pc, word := none, mnemonic := none, accessAddr := none }

/-- The record of an AlignmentFault of the fetch: no word was read (R243, R247). -/
def State.fetchAlignmentRecord (s : State) (a : OddAddress) : FaultRecord :=
  { kind := .alignmentFault, pc := s.pc, word := none, mnemonic := none, accessAddr := some a }

/-- The end of a step (R150): commit the pending state, or commit nothing and take the AlignmentFault of an access (R246). -/
def settle (i : Instr) (s : State) (pending : Except OddAddress State) : Host.Outcome State Fault Refusal :=
  match pending with
  | .ok t => .next t
  | .error a => .next (s.takeFault (s.alignmentRecord i a))

/-! ## Fetch (R151) and decode (R152) -/

/-- The instruction at an address: its word and the words after it, each low byte first (R57, R67, R122), decoded (R152). -/
def State.instrAt (s : State) (a : Word) : Instr :=
  decodeWords (s.wordAt a) (s.wordAt (a + 2#16)) (s.wordAt (a + 4#16))

/-- Fetch and Decode (R151, R152): the reserved-range test, then the alignment of pc, then the instruction at pc. The extension
words, read where R122 says, are not checked against the reserved range and cannot fault. -/
def State.fetch (s : State) : Except FaultRecord Instr :=
  if s.pc ≤ Config.ioLimit then .error s.peripheralRecord
  else
    match s.readWord s.pc with
    | .error a => .error (s.fetchAlignmentRecord a)
    | .ok _ => .ok (s.instrAt s.pc)

/-- A step requested of a dead block performs nothing (R36). -/
def State.stepDead (s : State) : State := s

/-! ## Placing an instruction where the next step fetches it (log 5) -/

/-- pc is an address the fetch accepts (R151). -/
def State.fetchable (s : State) : Bool := isEven s.pc && decide (Config.ioLimit < s.pc)

/-- DESIGN CHOICE (log 5). Where an instruction is placed when pc is no address to fetch from: the address the spec's test
vectors stand at (95_test_vectors.md). -/
def placeAddress : Word := 0xC000#16

/-- `s` running, pc at an address the fetch accepts, and the words stored from there up. -/
def State.placeWords (s : State) (w0 w1 w2 : Word) : State :=
  let t := { (if s.fetchable then s else s.setPc placeAddress) with run := .running }
  ((t.setWordAt t.pc w0).setWordAt (t.pc + 2#16) w1).setWordAt (t.pc + 4#16) w2

end Sys2Proof.Machine
end

