-- ==== Sys2Proof/Machine/Flags.lean ====
section
/-! DEFINITION. The status register's flags (spec/10_state.md R27 to R32) and the flag rules (41_execution_engine.md R157 to R161). -/

namespace Sys2Proof.Machine

/-- The values of the four flags an instruction writes (R158). -/
structure FlagValues where
  c : Bool
  z : Bool
  n : Bool
  v : Bool
  deriving DecidableEq, Repr

/-! ## Bit positions (R27) -/

def bitC : Nat := 0
def bitZ : Nat := 1
def bitN : Nat := 2
def bitGIE : Nat := 3
def bitCPUOFF : Nat := 4
def bitOSCOFF : Nat := 5
def bitSCG0 : Nat := 6
def bitSCG1 : Nat := 7
def bitV : Nat := 8

/-- A word with one bit replaced. -/
def setBit (x : Word) (k : Nat) (b : Bool) : Word :=
  if b then x ||| (1#16 <<< k) else x &&& ~~~(1#16 <<< k)

/-- One bit of sr (R28). -/
def State.srBit (s : State) (k : Nat) : Bool := s.sr.getLsbD k

/-- An individual flag write: that bit of sr and no other, the reserved bits included (R28). -/
def State.setSrBit (s : State) (k : Nat) (b : Bool) : State := s.setReg Reg.sr (setBit s.sr k b)

def State.flagC (s : State) : Bool := s.srBit bitC
def State.flagZ (s : State) : Bool := s.srBit bitZ
def State.flagN (s : State) : Bool := s.srBit bitN
def State.flagV (s : State) : Bool := s.srBit bitV

/-- The reserved bits sr[15:9] (R31). -/
def State.srReserved (s : State) : BitVec 7 := s.sr.extractLsb' 9 7

/-- The UpdateFlags phase: four individual flag writes (R158). -/
def State.updateFlags (s : State) (f : FlagValues) : State :=
  (((s.setSrBit bitC f.c).setSrBit bitZ f.z).setSrBit bitN f.n).setSrBit bitV f.v

/-- The UpdateFlags phase of an instruction that may write no flag (R155, R158). -/
def State.updateFlagsOpt (s : State) : Option FlagValues → State
  | some f => s.updateFlags f
  | none => s

/-! ## The flag rules -/

/-- msb_w(v) = v[w-1] (R8). -/
def msbW (w : Width) (v : Word) : Bool := v.getLsbD (widthBits w - 1)

/-- ArithFlags(a, b, w): the sum of two w-bit values, its low w bits and the four flags (R157). -/
def arithFlags (w : Width) (a b : Word) : Word × FlagValues :=
  let s := a.toNat + b.toNat
  let r := BitVec.ofNat 16 (s % 2 ^ widthBits w)
  (r, { c := decide (2 ^ widthBits w ≤ s)
        z := r == 0#16
        n := msbW w r
        v := msbW w a == msbW w b && msbW w r != msbW w a })

/-- neg_w(v) = mask_w(2^w - mask_w(v)) (R8). -/
def negW (w : Width) (v : Word) : Word :=
  BitVec.ofNat 16 ((2 ^ widthBits w - (maskW w v).toNat) % 2 ^ widthBits w)

/-- The logical flag rule, for XOR (R161). -/
def logicFlags (w : Width) (r : Word) : FlagValues :=
  { c := r != 0#16, z := r == 0#16, n := msbW w r, v := false }

end Sys2Proof.Machine
end

