-- ==== Sys2Proof/Machine/Operands.lean ====
section
/-! DEFINITION. Operand fetch and effective addresses: the resolver (spec/40_operand_resolution.md R120 to R135). The extension
word of an operand stands in the instruction (the fetch read it, log 4); the move of pc that goes with its fetch is made here. -/

namespace Sys2Proof.Machine

/-- Where a result would be written (R120). -/
inductive Target where
  | reg (r : Reg)
  | mem (ea : Word)
  | none
  deriving DecidableEq, Repr

/-- The constant-generator record (R35, R128). -/
structure CgRecord where
  fired : Bool
  literal : Word
  deriving DecidableEq, Repr

/-- The record of a step in which no operand is a constant (R128). -/
def CgRecord.notFired : CgRecord := { fired := false, literal := 0#16 }

/-- One resolved operand: the pending state after its side effects, its w-bit value, its location and the
constant-generator record (R120). -/
structure Resolved where
  state : State
  val : Word
  target : Target
  cg : CgRecord
  deriving DecidableEq, Repr

/-- The resolver's outputs for a two-operand instruction (R120, R130, R131). -/
structure Operands where
  state : State
  srcVal : Word
  dstVal : Word
  target : Target
  cg : CgRecord
  deriving DecidableEq, Repr

/-- The autoincrement amount: 1 at byte width, 2 at word width, for every register (R126, R129). -/
def incBy : Width → Word
  | .word => 2#16
  | .byte => 1#16

/-- The effective address of the Indexed family, after the extension-word fetch moved pc: base 0 for register 2, the address of
the extension word for register 0 (R124). -/
def State.indexedEA (s : State) (r : Reg) (x : Word) : Word :=
  (if r = Reg.sr then 0#16 else s.reg r) + x

/-- Register mode (R123). -/
def resolveReg (w : Width) (r : Reg) (s : State) : Except OddAddress Resolved :=
  .ok { state := s, val := maskW w (s.reg r), target := .reg r, cg := .notFired }

/-- The Indexed family, as a source, a sole operand or a destination (R124, R131). -/
def resolveIndexed (w : Width) (r : Reg) (x : Word) (s : State) : Except OddAddress Resolved :=
  let s := s.bumpPc
  let ea := s.indexedEA r x
  match s.memRead w ea with
  | .ok v => .ok { state := s, val := v, target := .mem ea, cg := .notFired }
  | .error a => .error a

/-- Indirect-Register mode (R125). -/
def resolveIndirect (w : Width) (r : Reg) (s : State) : Except OddAddress Resolved :=
  match s.memRead w (s.reg r) with
  | .ok v => .ok { state := s, val := v, target := .mem (s.reg r), cg := .notFired }
  | .error a => .error a

/-- Indirect-Autoincrement mode: the read, then the increment (R126). -/
def resolveAutoinc (w : Width) (r : Reg) (s : State) : Except OddAddress Resolved :=
  match s.memRead w (s.reg r) with
  | .ok v => .ok { state := s.setReg r (s.reg r + incBy w), val := v, target := .mem (s.reg r), cg := .notFired }
  | .error a => .error a

/-- Immediate mode: pc moves by 2 at any width (R127). -/
def resolveImm (w : Width) (n : Word) (s : State) : Except OddAddress Resolved :=
  .ok { state := s.bumpPc, val := maskW w n, target := .none, cg := .notFired }

/-- Constant mode: no extension word, no register touched, and the record fires (R128). -/
def resolveConst (w : Width) (c : Constant) (s : State) : Except OddAddress Resolved :=
  .ok { state := s, val := maskW w c.literal, target := .none, cg := { fired := true, literal := maskW w c.literal } }

/-- The source operand, or the sole operand of a single-operand instruction (R130, R133). -/
def resolveSrc (w : Width) (op : Src) (s : State) : Except OddAddress Resolved :=
  match op with
  | .reg r => resolveReg w r s
  | .indexed r x => resolveIndexed w r x s
  | .indirect r => resolveIndirect w r s
  | .autoinc r => resolveAutoinc w r s
  | .imm n => resolveImm w n s
  | .const c => resolveConst w c s

/-- The two-operand destination, read for every two-operand instruction (R131). -/
def resolveDst (w : Width) (op : Dst) (s : State) : Except OddAddress Resolved :=
  match op with
  | .reg r => resolveReg w r s
  | .indexed r x => resolveIndexed w r x s

/-- The source completely, then the destination, which sees every side effect of the source (R121, R134). -/
def resolveTwo (w : Width) (src : Src) (dst : Dst) (s : State) : Except OddAddress Operands :=
  match resolveSrc w src s with
  | .error a => .error a
  | .ok p =>
    match resolveDst w dst p.state with
    | .error a => .error a
    | .ok q => .ok { state := q.state, srcVal := p.val, dstVal := q.val, target := q.target, cg := p.cg }

end Sys2Proof.Machine
end

