-- ==== Sys2Proof/Machine/Engine.lean ====
section
/-! DEFINITION. The phases after ResolveOperands, shared by every instruction (spec/41_execution_engine.md R150, R154 to R163). -/

namespace Sys2Proof.Machine

/-- What a two-operand handler answers (R155): a result to write back or none, flag values to write or none, and whether the
Advance is suppressed. -/
structure HandlerResult where
  result : Option Word
  flags : Option FlagValues
  suppressAdvance : Bool
  deriving DecidableEq, Repr

/-- The WriteBack phase (R156). Register results are zero-extended from the operating width, and register 2 takes a whole
write; at word width a memory target is even, since it was read (R156). -/
def writeBack (w : Width) (target : Target) (result : Option Word) (s : State) : Except OddAddress State :=
  match result, target with
  | none, _ => .ok s
  | some r, .reg i => .ok (s.writeReg i (maskW w r))
  | some r, .mem ea => s.memWrite w ea r
  | some _, .none => .ok s

/-- WriteBack, UpdateFlags and Advance, in that order, on the pending state (R150, R158, R162). -/
def finish (w : Width) (ops : Operands) (res : HandlerResult) : Except OddAddress State :=
  match writeBack w ops.target res.result ops.state with
  | .ok s => .ok ((s.updateFlagsOpt res.flags).advance res.suppressAdvance)
  | .error a => .error a

/-- ResolveOperands, Execute and the phases after it, for a two-operand instruction with a handler (R150, R192). -/
def runTwo (i : Instr) (w : Width) (src : Src) (dst : Dst) (handler : Operands → HandlerResult) (s : State) :
    Host.Outcome State Fault Refusal :=
  settle i s <|
    match resolveTwo w src dst s with
    | .ok ops => finish w ops (handler ops)
    | .error a => .error a

/-- Dispatch of a mnemonic with no handler: UnimplementedOpcode, raised after operand resolution, whose pending effects are
discarded and whose own faults come first (R154, R242, R246, R248). -/
def unimplemented (i : Instr) (s : State) {α : Type} (resolved : Except OddAddress α) :
    Host.Outcome State Fault Refusal :=
  match resolved with
  | .ok _ => .next (s.takeFault (s.unimplementedRecord i))
  | .error a => .next (s.takeFault (s.alignmentRecord i a))

/-- A two-operand instruction with no handler (R192, R98). -/
def unimplementedTwo (i : Instr) (w : Width) (src : Src) (dst : Dst) (s : State) : Host.Outcome State Fault Refusal :=
  unimplemented i s (resolveTwo w src dst s)

/-- A single-operand instruction with no handler (R207, R98). -/
def unimplementedOne (i : Instr) (w : Width) (op : Src) (s : State) : Host.Outcome State Fault Refusal :=
  unimplemented i s (resolveSrc w op s)

/-- A jump with no handler: a jump resolves nothing (R228, R98). -/
def unimplementedJump (i : Instr) (s : State) : Host.Outcome State Fault Refusal :=
  unimplemented i s (.ok ())

/-- A word no mnemonic covers (R97, R241). -/
def undefinedWord (i : Instr) (s : State) : Host.Outcome State Fault Refusal :=
  .next (s.takeFault (s.undefinedRecord i))

/-- disp = 2 * sext_10(off) (R89). -/
def jumpDisp (off : BitVec 10) : Int := 2 * off.toInt

/-- pc <- (pc + disp) mod 2^16, the Execute phase of a taken jump (R228, R89). -/
def State.jumpBy (s : State) (off : BitVec 10) : State := s.setPc (s.pc + BitVec.ofInt 16 (jumpDisp off))

/-- The CALL push and transfer, after the operand is resolved (R205): the return address is the address of the word after the
whole instruction, stored below sp; pc becomes the operand's value and is not advanced. -/
def callTo (dest : Word) (s : State) : Except OddAddress State :=
  let ret := s.pc + 2#16
  let t := s.setSp (s.sp - 2#16)
  match t.writeWord t.sp ret with
  | .ok u => .ok ((u.setPc dest).advance true)
  | .error a => .error a

end Sys2Proof.Machine
end

