-- ==== Sys2Proof/Machine/Jumps.lean ====
section
/-! DEFINITION. The jumps (spec/44_jumps.md R220 to R228). -/

namespace Sys2Proof.Machine

/-- JNE: UnimplementedOpcode at dispatch (R220). -/
def execJne (off : BitVec 10) (s : State) : Host.Outcome State Fault Refusal :=
  unimplementedJump (.jne off) s

/-- JEQ: the displacement is added when Z is set; the Advance follows in both cases (R221, R228). -/
def execJeq (off : BitVec 10) (s : State) : Host.Outcome State Fault Refusal :=
  .next ((if s.flagZ then s.jumpBy off else s).advance false)

/-- JNC: UnimplementedOpcode at dispatch (R222). -/
def execJnc (off : BitVec 10) (s : State) : Host.Outcome State Fault Refusal :=
  unimplementedJump (.jnc off) s

/-- JC: UnimplementedOpcode at dispatch (R223). -/
def execJc (off : BitVec 10) (s : State) : Host.Outcome State Fault Refusal :=
  unimplementedJump (.jc off) s

/-- JN: UnimplementedOpcode at dispatch (R224). -/
def execJn (off : BitVec 10) (s : State) : Host.Outcome State Fault Refusal :=
  unimplementedJump (.jn off) s

/-- JGE: UnimplementedOpcode at dispatch (R225). -/
def execJge (off : BitVec 10) (s : State) : Host.Outcome State Fault Refusal :=
  unimplementedJump (.jge off) s

/-- JL: UnimplementedOpcode at dispatch (R226). -/
def execJl (off : BitVec 10) (s : State) : Host.Outcome State Fault Refusal :=
  unimplementedJump (.jl off) s

/-- JMP: the displacement is added, then the Advance (R227, R228). -/
def execJmp (off : BitVec 10) (s : State) : Host.Outcome State Fault Refusal :=
  .next ((s.jumpBy off).advance false)

end Sys2Proof.Machine
end

