-- ==== Sys2Proof/Machine/SingleOperand.lean ====
section
/-! DEFINITION. The single-operand instructions (spec/43_single_operand.md R200 to R207). -/

namespace Sys2Proof.Machine

/-- RRC: UnimplementedOpcode after operand resolution (R200). -/
def execRrc (w : Width) (op : Src) (s : State) : Host.Outcome State Fault Refusal :=
  unimplementedOne (.rrc w op) w op s

/-- SWPB: UnimplementedOpcode after operand resolution (R201). -/
def execSwpb (w : Width) (op : Src) (s : State) : Host.Outcome State Fault Refusal :=
  unimplementedOne (.swpb w op) w op s

/-- RRA: UnimplementedOpcode after operand resolution (R202). -/
def execRra (w : Width) (op : Src) (s : State) : Host.Outcome State Fault Refusal :=
  unimplementedOne (.rra w op) w op s

/-- SXT: UnimplementedOpcode after operand resolution (R203). -/
def execSxt (w : Width) (op : Src) (s : State) : Host.Outcome State Fault Refusal :=
  unimplementedOne (.sxt w op) w op s

/-- PUSH: UnimplementedOpcode after operand resolution (R204). -/
def execPush (w : Width) (op : Src) (s : State) : Host.Outcome State Fault Refusal :=
  unimplementedOne (.push w op) w op s

/-- CALL: the operand, zero-extended from the operating width, is the target; the push is a word at any width (R205). -/
def execCall (w : Width) (op : Src) (s : State) : Host.Outcome State Fault Refusal :=
  settle (.call w op) s <|
    match resolveSrc w op s with
    | .ok p => callTo p.val p.state
    | .error a => .error a

/-- RETI: UnimplementedOpcode after operand resolution (R206). -/
def execReti (w : Width) (op : Src) (s : State) : Host.Outcome State Fault Refusal :=
  unimplementedOne (.reti w op) w op s

end Sys2Proof.Machine
end

