-- ==== Sys2Proof/Machine/TwoOperand.lean ====
section
/-! DEFINITION. The two-operand instructions (spec/42_two_operand.md R180 to R192). A handler is the Execute phase of one
instruction: from the resolved operands, the result, the flags and whether the Advance is suppressed (41_execution_engine.md R155). -/

namespace Sys2Proof.Machine

/-- The destination is register 0 in Register mode (R163, R180). -/
def Target.isPc : Target → Bool
  | .reg r => r == Reg.pc
  | .mem _ => false
  | .none => false

/-- MOV: the source, no flags; the Advance is suppressed when the destination is pc itself (R180, R163). -/
def movHandler (ops : Operands) : HandlerResult :=
  { result := some ops.srcVal, flags := none, suppressAdvance := ops.target.isPc }

/-- ADD: dst + src (R181, R159). -/
def addHandler (w : Width) (ops : Operands) : HandlerResult :=
  let (r, f) := arithFlags w ops.srcVal ops.dstVal
  { result := some r, flags := some f, suppressAdvance := false }

/-- SUB: dst - src, by adding the negated source (R184, R160). -/
def subHandler (w : Width) (ops : Operands) : HandlerResult :=
  let (r, f) := arithFlags w (negW w ops.srcVal) ops.dstVal
  { result := some r, flags := some f, suppressAdvance := false }

/-- CMP: the flags of SUB and no write (R185, R160). -/
def cmpHandler (w : Width) (ops : Operands) : HandlerResult :=
  let (_, f) := arithFlags w (negW w ops.srcVal) ops.dstVal
  { result := none, flags := some f, suppressAdvance := false }

/-- BIS: src OR dst, no flags (R189). -/
def bisHandler (ops : Operands) : HandlerResult :=
  { result := some (ops.srcVal ||| ops.dstVal), flags := none, suppressAdvance := false }

/-- XOR: src XOR dst, flags by the logical rule (R190, R161). -/
def xorHandler (w : Width) (ops : Operands) : HandlerResult :=
  let r := ops.srcVal ^^^ ops.dstVal
  { result := some r, flags := some (logicFlags w r), suppressAdvance := false }

/-- MOV (R180). -/
def execMov (w : Width) (src : Src) (dst : Dst) (s : State) : Host.Outcome State Fault Refusal :=
  runTwo (.mov w src dst) w src dst movHandler s

/-- ADD (R181). -/
def execAdd (w : Width) (src : Src) (dst : Dst) (s : State) : Host.Outcome State Fault Refusal :=
  runTwo (.add w src dst) w src dst (addHandler w) s

/-- ADDC: UnimplementedOpcode after operand resolution (R182). -/
def execAddc (w : Width) (src : Src) (dst : Dst) (s : State) : Host.Outcome State Fault Refusal :=
  unimplementedTwo (.addc w src dst) w src dst s

/-- SUBC: UnimplementedOpcode after operand resolution (R183). -/
def execSubc (w : Width) (src : Src) (dst : Dst) (s : State) : Host.Outcome State Fault Refusal :=
  unimplementedTwo (.subc w src dst) w src dst s

/-- SUB (R184). -/
def execSub (w : Width) (src : Src) (dst : Dst) (s : State) : Host.Outcome State Fault Refusal :=
  runTwo (.sub w src dst) w src dst (subHandler w) s

/-- CMP (R185). -/
def execCmp (w : Width) (src : Src) (dst : Dst) (s : State) : Host.Outcome State Fault Refusal :=
  runTwo (.cmp w src dst) w src dst (cmpHandler w) s

/-- DADD: UnimplementedOpcode after operand resolution (R186). -/
def execDadd (w : Width) (src : Src) (dst : Dst) (s : State) : Host.Outcome State Fault Refusal :=
  unimplementedTwo (.dadd w src dst) w src dst s

/-- BIT: UnimplementedOpcode after operand resolution (R187). -/
def execBit (w : Width) (src : Src) (dst : Dst) (s : State) : Host.Outcome State Fault Refusal :=
  unimplementedTwo (.bit w src dst) w src dst s

/-- BIC: UnimplementedOpcode after operand resolution (R188). -/
def execBic (w : Width) (src : Src) (dst : Dst) (s : State) : Host.Outcome State Fault Refusal :=
  unimplementedTwo (.bic w src dst) w src dst s

/-- BIS (R189). -/
def execBis (w : Width) (src : Src) (dst : Dst) (s : State) : Host.Outcome State Fault Refusal :=
  runTwo (.bis w src dst) w src dst bisHandler s

/-- XOR (R190). -/
def execXor (w : Width) (src : Src) (dst : Dst) (s : State) : Host.Outcome State Fault Refusal :=
  runTwo (.xor w src dst) w src dst (xorHandler w) s

/-- AND: UnimplementedOpcode after operand resolution (R191). -/
def execAnd (w : Width) (src : Src) (dst : Dst) (s : State) : Host.Outcome State Fault Refusal :=
  unimplementedTwo (.and w src dst) w src dst s

end Sys2Proof.Machine
end

