-- ==== Sys2Proof/Machine/Undefined.lean ====
section
/-! DEFINITION. The words no mnemonic covers (spec/30_encoding.md R87, R97; 60_exceptions.md R241). -/

namespace Sys2Proof.Machine

/-- The undefined words of the row 0000: UndefinedOpcode (R97, R241). -/
def execUndefined0 (low : BitVec 12) (s : State) : Host.Outcome State Fault Refusal :=
  undefinedWord (.undefined0 low) s

/-- The undefined words of the row 1380: UndefinedOpcode (R97, R241). -/
def execUndefined1380 (low : BitVec 7) (s : State) : Host.Outcome State Fault Refusal :=
  undefinedWord (.undefined1380 low) s

/-- The undefined words of the row 1400: UndefinedOpcode (R97, R241). -/
def execUndefined1400 (low : BitVec 10) (s : State) : Host.Outcome State Fault Refusal :=
  undefinedWord (.undefined1400 low) s

/-- The undefined words of the row 1800: UndefinedOpcode (R97, R241). -/
def execUndefined1800 (low : BitVec 11) (s : State) : Host.Outcome State Fault Refusal :=
  undefinedWord (.undefined1800 low) s

end Sys2Proof.Machine
end

