-- ==== Sys2Proof/Machine/Dispatch.lean ====
section
/-! DEFINITION. The Dispatch phase: one arm per constructor of `Instr` (spec/41_execution_engine.md R154). -/

namespace Sys2Proof.Machine

def exec (i : Instr) (s : State) : Host.Outcome State Fault Refusal :=
  match i with
  | .mov w src dst => Sys2Proof.Machine.execMov w src dst s
  | .add w src dst => Sys2Proof.Machine.execAdd w src dst s
  | .addc w src dst => Sys2Proof.Machine.execAddc w src dst s
  | .subc w src dst => Sys2Proof.Machine.execSubc w src dst s
  | .sub w src dst => Sys2Proof.Machine.execSub w src dst s
  | .cmp w src dst => Sys2Proof.Machine.execCmp w src dst s
  | .dadd w src dst => Sys2Proof.Machine.execDadd w src dst s
  | .bit w src dst => Sys2Proof.Machine.execBit w src dst s
  | .bic w src dst => Sys2Proof.Machine.execBic w src dst s
  | .bis w src dst => Sys2Proof.Machine.execBis w src dst s
  | .xor w src dst => Sys2Proof.Machine.execXor w src dst s
  | .and w src dst => Sys2Proof.Machine.execAnd w src dst s
  | .rrc w op => Sys2Proof.Machine.execRrc w op s
  | .swpb w op => Sys2Proof.Machine.execSwpb w op s
  | .rra w op => Sys2Proof.Machine.execRra w op s
  | .sxt w op => Sys2Proof.Machine.execSxt w op s
  | .push w op => Sys2Proof.Machine.execPush w op s
  | .call w op => Sys2Proof.Machine.execCall w op s
  | .reti w op => Sys2Proof.Machine.execReti w op s
  | .jne off => Sys2Proof.Machine.execJne off s
  | .jeq off => Sys2Proof.Machine.execJeq off s
  | .jnc off => Sys2Proof.Machine.execJnc off s
  | .jc off => Sys2Proof.Machine.execJc off s
  | .jn off => Sys2Proof.Machine.execJn off s
  | .jge off => Sys2Proof.Machine.execJge off s
  | .jl off => Sys2Proof.Machine.execJl off s
  | .jmp off => Sys2Proof.Machine.execJmp off s
  | .undefined0 low => Sys2Proof.Machine.execUndefined0 low s
  | .undefined1380 low => Sys2Proof.Machine.execUndefined1380 low s
  | .undefined1400 low => Sys2Proof.Machine.execUndefined1400 low s
  | .undefined1800 low => Sys2Proof.Machine.execUndefined1800 low s

end Sys2Proof.Machine
end

