-- ==== Sys2Proof/Machine/Step.lean ====
section
/-! DEFINITION. One step (spec/41_execution_engine.md R150), and where the next instruction is placed (log 5). -/

namespace Sys2Proof.Machine

/-- One step (R150): a dead block performs nothing (R36); else Fetch and Decode, whose fault is taken (R246), then the
instruction. Every phase after Decode is the instruction's meaning. -/
def step (s : State) : Host.Outcome State Fault Refusal :=
  match s.run with
  | .dead _ => .next s.stepDead
  | .running =>
    match s.fetch with
    | .error record => .next (s.takeFault record)
    | .ok i => exec i s

/-- `s` with the instruction whose first `nbits` bits are those of `w` stored where the next step fetches it, its further bits
zero, so that the next step fetches and runs exactly it (log 5). -/
def State.withFetchWord (s : State) (nbits w : Nat) : State :=
  let v := w % 2 ^ nbits
  s.placeWords (BitVec.ofNat 16 v) (BitVec.ofNat 16 (v / 2 ^ 16)) (BitVec.ofNat 16 (v / 2 ^ 32))

end Sys2Proof.Machine
end

