-- ==== Sys2Proof/Machine/Inspect.lean ====
section
/-! DEFINITION. What the host sees (spec/00_scope.md R10 to R12): the result of a step (41_execution_engine.md R166), the data
writes the io_write_hook is told of (20_memory.md R60), inspection and decode-for-display. None of it is state, and none changes state. -/

namespace Sys2Proof.Machine

/-! ## The result of a step -/

/-- The state a step request leaves. -/
def State.afterStep (s : State) : State :=
  match step s with
  | .next t => t
  | .fault _ => s
  | .refused _ => s

/-- The resolver's outputs, as the step's result and decode-for-display give them (R35, R120): the source or sole operand's value,
the destination's value, the location (for an operand in memory, its effective address) and the constant-generator record. Absent
parts belong to formats without that operand. -/
structure OperandView where
  srcVal : Option Word
  dstVal : Option Word
  target : Target
  cg : CgRecord
  deriving DecidableEq, Repr

/-- The view of an instruction without operands (R94, mode None). -/
def OperandView.empty : OperandView := { srcVal := none, dstVal := none, target := .none, cg := .notFired }

/-- The operands the resolver gives in a state. -/
def operandView (i : Instr) (s : State) : OperandView :=
  match i.shape with
  | .two w src dst =>
    match resolveTwo w src dst s with
    | .ok ops => { srcVal := some ops.srcVal, dstVal := some ops.dstVal, target := ops.target, cg := ops.cg }
    | .error _ => .empty
  | .one w op =>
    match resolveSrc w op s with
    | .ok p => { srcVal := some p.val, dstVal := none, target := p.target, cg := p.cg }
    | .error _ => .empty
  | .none => .empty

/-- What a step returns (R10, R35, R166, R246): Ok with the instruction's address, word, format, mnemonic and fields and the resolver's
outputs, or the fault record. -/
inductive StepReport where
  | ok (pc word : Word) (format : Format) (mnemonic : Option Mnemonic) (instr : Instr) (operands : OperandView)
  | fault (record : FaultRecord)
  deriving DecidableEq, Repr

/-- The result of the step requested in `s`: a function of the state, for it is an output and not state (R35, R166, D27). -/
def stepReport (s : State) : StepReport :=
  match s.afterStep.run with
  | .dead record => .fault record
  | .running =>
    let i := s.instrAt s.pc
    .ok s.pc (s.wordAt s.pc) i.format i.mnemonic i (operandView i s)

/-! ## The data writes of a step (log 7) -/

/-- A data write, as the host's io_write_hook is called with it (R60, D16). -/
structure DataWrite where
  addr : Word
  width : Width
  value : Word
  deriving DecidableEq, Repr

/-- The data write of a two-operand instruction: the result, where the target is in memory (R156). -/
def twoOperandWrites (w : Width) (src : Src) (dst : Dst) (handler : Operands → HandlerResult) (s : State) : List DataWrite :=
  match resolveTwo w src dst s with
  | .error _ => []
  | .ok ops =>
    match (handler ops).result, ops.target with
    | some r, .mem ea => [{ addr := ea, width := w, value := maskW w r }]
    | _, _ => []

/-- The data write of CALL: the return address, a word below sp (R205). -/
def callWrites (w : Width) (op : Src) (s : State) : List DataWrite :=
  match resolveSrc w op s with
  | .error _ => []
  | .ok p => [{ addr := p.state.sp - 2#16, width := .word, value := p.state.pc + 2#16 }]

/-- The data writes of an instruction; only the executing instructions of R154 make one. -/
def instrWrites (i : Instr) (s : State) : List DataWrite :=
  match i with
  | .mov w src dst => twoOperandWrites w src dst movHandler s
  | .add w src dst => twoOperandWrites w src dst (addHandler w) s
  | .sub w src dst => twoOperandWrites w src dst (subHandler w) s
  | .bis w src dst => twoOperandWrites w src dst bisHandler s
  | .xor w src dst => twoOperandWrites w src dst (xorHandler w) s
  | .call w op => callWrites w op s
  | .cmp _ _ _ | .addc _ _ _ | .subc _ _ _ | .dadd _ _ _ | .bit _ _ _ | .bic _ _ _ | .and _ _ _ => []
  | .rrc _ _ | .swpb _ _ | .rra _ _ | .sxt _ _ | .push _ _ | .reti _ _ => []
  | .jne _ | .jeq _ | .jnc _ | .jc _ | .jn _ | .jge _ | .jl _ | .jmp _ => []
  | .undefined0 _ | .undefined1380 _ | .undefined1400 _ | .undefined1800 _ => []

/-- The data writes the step requested in `s` commits; a step that faults commits none (R246). -/
def dataWrites (s : State) : List DataWrite :=
  match s.afterStep.run with
  | .dead _ => []
  | .running => instrWrites (s.instrAt s.pc) s

/-! ## Inspection (R11) -/

/-- A register by index; an index outside 0 to 15 is refused. -/
def inspectReg (s : State) (index : Nat) : Except Refusal Word :=
  if index < 16 then .ok (s.reg (BitVec.ofNat 4 index)) else .error (.registerIndexOutOfRange index)

/-- The program counter. -/
def inspectPc (s : State) : Word := s.pc

/-- The stack pointer. -/
def inspectSp (s : State) : Word := s.sp

/-- The reset-vector value, the word at 0xFFFE. -/
def inspectResetVector (s : State) : Word := s.wordAt Config.resetVector

/-- A byte of memory. -/
def inspectByte (s : State) (a : Word) : Byte := s.readByte a

/-- A word of memory, by the alignment rule of ReadWord (R55); a fault here is an answer to the host and kills no run. -/
def inspectWord (s : State) (a : Word) : Except OddAddress Word := s.readWord a

/-! ## Decode-for-display (R12) -/

/-- What decode-for-display returns: the kind of fault a step there would raise, or the decoded instruction. -/
inductive Display where
  | fault (kind : Fault)
  | instr (format : Format) (mnemonic : Option Mnemonic) (instr : Instr) (operands : OperandView)
  deriving DecidableEq, Repr

/-- Decode-for-display of the instruction at an address: pure, and of the current registers and memory whatever the run state
is (R12, log 8). -/
def displayAt (s : State) (a : Word) : Display :=
  let p := { s.setPc a with run := .running }
  match p.afterStep.run with
  | .dead record => .fault record.kind
  | .running =>
    let i := p.instrAt a
    .instr i.format i.mnemonic i (operandView i p)

end Sys2Proof.Machine
end

