-- ==== Sys2Proof/Machine/Loader.lean ====
section
/-! DEFINITION. The loader interface (spec/20_memory.md R64) and the reset transition (70_reset_and_hazards.md R271). -/

namespace Sys2Proof.Machine

/-- A segment of an image: `length` bytes from `offset` in the image go to `address` upward (R64). -/
structure Segment where
  offset : Nat
  address : Nat
  length : Nat
  deriving DecidableEq, Repr

/-- The segment stays inside memory and inside the image (R64). -/
def Segment.inRange (image : List Byte) (g : Segment) : Bool :=
  g.address + g.length ≤ Config.memorySize && g.offset + g.length ≤ image.length

/-- The two segments share no address (R64). -/
def Segment.disjoint (g h : Segment) : Bool :=
  g.length == 0 || h.length == 0 || g.address + g.length ≤ h.address || h.address + h.length ≤ g.address

/-- No two segments of the list share an address (R64). -/
def segmentsDisjoint : List Segment → Bool
  | [] => true
  | g :: rest => rest.all g.disjoint && segmentsDisjoint rest

/-- Bytes stored from an address upward. -/
def Memory.storeBytes : Memory → Nat → List Byte → Memory
  | m, _, [] => m
  | m, a, b :: rest => Memory.storeBytes (Memory.set m a b) (a + 1) rest

/-- M[address + k] <- image[offset + k] for k in 0 .. length - 1 (R64). -/
def loadSegment (image : List Byte) (m : Memory) (g : Segment) : Memory :=
  Memory.storeBytes m g.address ((image.drop g.offset).take g.length)

/-- Every segment in turn (R64). -/
def loadSegments (image : List Byte) (segments : List Segment) (m : Memory) : Memory :=
  segments.foldl (loadSegment image) m

/-- Reset(image, segments): everything 0 and Running, the image loaded, and pc the word at the reset vector (R270, R271). A list
with a segment out of range or with two segments that share an address is refused (R64, log 9). -/
def launch (image : List Byte) (segments : List Segment) : Host.Outcome State Fault Refusal :=
  if segments.all (Segment.inRange image) then
    if segmentsDisjoint segments then
      let s := { State.reset with mem := loadSegments image segments [] }
      .next (s.setPc (s.wordAt Config.resetVector))
    else .refused .segmentsOverlap
  else .refused .segmentOutOfRange

end Sys2Proof.Machine
end

