-- ==== Sys2Proof/Safety.lean ====
section
/-! DEFINITION. What counts as a safe step, in the terms claims use: where an instruction's operands are and what they hold, in
closed form from the spec (40_operand_resolution.md R121 to R134), and when an instruction runs without a fault. -/

namespace Sys2Proof.Machine

/-! ## Operands in closed form -/

/-- Two bytes for each extension word (R122). -/
def extBytes (ext : List Word) : Word := BitVec.ofNat 16 (2 * ext.length)

/-- What x[r] holds after the source is resolved: pc has passed the source's extension word and an autoincremented register is
already higher (R121, R132, R134). -/
def State.regAfterSrc (s : State) (w : Width) (src : Src) (r : Reg) : Word :=
  if r = Reg.pc then s.pc + extBytes src.ext
  else if src = .autoinc r then s.reg r + incBy w
  else s.reg r

/-- The effective address of a source or sole operand that is in memory (R124 to R126). The base of symbolic addressing is the
address of the extension word (R132). -/
def srcEA (src : Src) (s : State) : Option Word :=
  match src with
  | .indexed r x => some ((if r = Reg.sr then 0#16 else if r = Reg.pc then s.pc + 2#16 else s.reg r) + x)
  | .indirect r => some (s.reg r)
  | .autoinc r => some (s.reg r)
  | .reg _ => none
  | .imm _ => none
  | .const _ => none

/-- The effective address of a destination in memory (R131, R132, R134). -/
def dstEA (w : Width) (src : Src) (dst : Dst) (s : State) : Option Word :=
  match dst with
  | .reg _ => none
  | .indexed r x =>
    some ((if r = Reg.sr then 0#16 else if r = Reg.pc then s.pc + extBytes src.ext + 2#16 else s.regAfterSrc w src r) + x)

/-- The w-bit value at an address, zero-extended (R62). -/
def State.valueAt (s : State) (w : Width) (a : Word) : Word :=
  match w with
  | .word => s.wordAt a
  | .byte => (s.readByte a).setWidth 16

/-- The value of a source or sole operand (R123 to R128). -/
def srcValue (w : Width) (src : Src) (s : State) : Word :=
  match src with
  | .reg r => maskW w (s.reg r)
  | .indexed r x => s.valueAt w ((if r = Reg.sr then 0#16 else if r = Reg.pc then s.pc + 2#16 else s.reg r) + x)
  | .indirect r => s.valueAt w (s.reg r)
  | .autoinc r => s.valueAt w (s.reg r)
  | .imm n => maskW w n
  | .const c => maskW w c.literal

/-- The value of a destination before the instruction writes it (R131, R132, R134). -/
def dstValue (w : Width) (src : Src) (dst : Dst) (s : State) : Word :=
  match dst with
  | .reg r => maskW w (s.regAfterSrc w src r)
  | .indexed r x =>
    s.valueAt w ((if r = Reg.sr then 0#16 else if r = Reg.pc then s.pc + extBytes src.ext + 2#16 else s.regAfterSrc w src r) + x)

/-- Where a source operand stands (R120). -/
def srcTarget (src : Src) (s : State) : Target :=
  match src with
  | .reg r => .reg r
  | .imm _ | .const _ => .none
  | .indexed _ _ | .indirect _ | .autoinc _ =>
    match srcEA src s with
    | some a => .mem a
    | none => .none

/-- Where a two-operand result goes (R131, R156). -/
def twoTarget (w : Width) (src : Src) (dst : Dst) (s : State) : Target :=
  match dst with
  | .reg r => .reg r
  | .indexed _ _ =>
    match dstEA w src dst s with
    | some a => .mem a
    | none => .none

/-- The constant-generator record of a source operand (R128). -/
def srcCg (w : Width) (src : Src) : CgRecord :=
  match src with
  | .const c => { fired := true, literal := maskW w c.literal }
  | .reg _ | .indexed _ _ | .indirect _ | .autoinc _ | .imm _ => .notFired

/-- The resolver's outputs in closed form (R35, R120): what a fault-free step reports and decode-for-display shows. -/
def operandsInClosedForm (i : Instr) (s : State) : OperandView :=
  match i.shape with
  | .two w src dst =>
    { srcVal := some (srcValue w src s), dstVal := some (dstValue w src dst s), target := twoTarget w src dst s,
      cg := srcCg w src }
  | .one w op => { srcVal := some (srcValue w op s), dstVal := none, target := srcTarget op s, cg := srcCg w op }
  | .none => .empty

/-! ## When an instruction faults -/

/-- The address, if an access of width w to it is misaligned (R59). -/
def oddAt (w : Width) (ea : Option Word) : Option Word :=
  match w, ea with
  | .word, some a => if isEven a then none else some a
  | .word, none => none
  | .byte, _ => none

/-- The first operand address that is misaligned, the source's before the destination's (R135, R248). -/
def oddOperand (i : Instr) (s : State) : Option Word :=
  match i.shape with
  | .two w src dst => (oddAt w (srcEA src s)).or (oddAt w (dstEA w src dst s))
  | .one w op => oddAt w (srcEA op s)
  | .none => none

/-- Where CALL stores the return address: below sp as the operand left it (R205). -/
def callPushAddr (w : Width) (op : Src) (s : State) : Word := s.regAfterSrc w op Reg.sp - 2#16

/-- The mnemonics with a handler (R154). -/
def Mnemonic.implemented : Mnemonic → Bool
  | .mov | .add | .sub | .cmp | .bis | .xor | .call | .jeq | .jmp => true
  | .addc | .subc | .dadd | .bit | .bic | .and => false
  | .rrc | .swpb | .rra | .sxt | .push | .reti => false
  | .jne | .jnc | .jc | .jn | .jge | .jl => false

/-- The fault record an instruction's own phases raise in a state, in the priority of R248 (3) to (7), or none. -/
def instrFault (i : Instr) (s : State) : Option FaultRecord :=
  match i.mnemonic with
  | none => some (s.undefinedRecord i)
  | some m =>
    match oddOperand i s with
    | some a => some (s.alignmentRecord i a)
    | none =>
      if Mnemonic.implemented m then
        match i with
        | .call w op => if isEven (callPushAddr w op s) then none else some (s.alignmentRecord i (callPushAddr w op s))
        | _ => none
      else some (s.unimplementedRecord i)

/-- The fault record a step raises in a running state, in the priority of R248, or none. -/
def stepFault (s : State) : Option FaultRecord :=
  if s.pc ≤ Config.ioLimit then some s.peripheralRecord
  else if isEven s.pc then instrFault (s.instrAt s.pc) s
  else some (s.fetchAlignmentRecord s.pc)

/-- A safe step: the block runs on. -/
def SafeStep (s : State) : Prop := s.run = .running ∧ stepFault s = none

/-! ## Invariants -/

/-- The memory of a state is in its canonical form. -/
def State.memCanonical (s : State) : Prop := Memory.wf s.mem = true

end Sys2Proof.Machine
end

