-- ==== Sys2Proof/Certificates/Slice0/Obligations.lean ====
section
/-! DEFINITION. The statements for the provers, from the numbered rules of spec/. Operands are named by the closed forms of
Safety.lean: `srcValue`, `dstValue`, `srcEA`, `dstEA`, `regAfterSrc`. -/

namespace Sys2Proof.Claims

open Sys2Proof Sys2Proof.Machine

/-! ## Words the statements share -/

/-- The address after the whole instruction: s.pc + 2 × length (R21, R96). -/
def nextPc (i : Instr) (s : State) : Word := s.pc + BitVec.ofNat 16 (2 * i.length)

/-- The instruction's operands are well formed and every one of them is readable: a word-width one is at an even address (R135). -/
def readable (i : Instr) (s : State) : Prop := i.wf = true ∧ oddOperand i s = none

/-- The state a fault leaves (R246): the state before the step, dead with the record (R247). -/
def deadWith (s : State) (kind : Fault) (word : Option Word) (mnemonic : Option Mnemonic) (accessAddr : Option Word) : State :=
  { s with run := .dead { kind := kind, pc := s.pc, word := word, mnemonic := mnemonic, accessAddr := accessAddr } }

/-- The four flags of a state (R27). -/
def flagsAre (t : State) (c z n v : Bool) : Prop := t.flagC = c ∧ t.flagZ = z ∧ t.flagN = n ∧ t.flagV = v

/-- A w-bit result stored as WriteBack stores it and pc moved as Advance moves it, for an instruction that writes the four flags
and does not suppress the Advance (R156, R158, R162, R164): into a register; into pc, then + 2; into sr, whose bits 7:3 it gives
(the flags come after, the reserved bits are drawn); or into memory at the destination's effective address. -/
def resultUnderFlags (i : Instr) (w : Width) (src : Src) (dst : Dst) (s t : State) (r : Word) : Prop :=
  match dst with
  | .reg d =>
    (d ≠ Reg.pc → d ≠ Reg.sr → t.reg d = r) ∧
    (d = Reg.pc → t.pc = r + 2#16) ∧
    (d ≠ Reg.pc → t.pc = nextPc i s) ∧
    (d = Reg.sr → t.sr.extractLsb' 3 5 = r.extractLsb' 3 5)
  | .indexed _ _ => t.pc = nextPc i s ∧ ∀ ea, dstEA w src dst s = some ea → t.valueAt w ea = r

/-- The same for an instruction that writes no flag (R189): sr is unchanged unless it is the destination, and then takes bits
8:0 of the result. -/
def resultNoFlags (i : Instr) (w : Width) (src : Src) (dst : Dst) (s t : State) (r : Word) : Prop :=
  match dst with
  | .reg d =>
    (d ≠ Reg.pc → d ≠ Reg.sr → t.reg d = r) ∧
    (d = Reg.pc → t.pc = r + 2#16) ∧
    (d ≠ Reg.pc → t.pc = nextPc i s) ∧
    (d = Reg.sr → t.sr.extractLsb' 0 9 = r.extractLsb' 0 9) ∧
    (d ≠ Reg.sr → t.sr = s.sr)
  | .indexed _ _ => t.pc = nextPc i s ∧ t.sr = s.sr ∧ ∀ ea, dstEA w src dst s = some ea → t.valueAt w ea = r

/-- The six two-operand instructions that execute (R154). -/
def executesTwo (m : Mnemonic) : Prop :=
  m = .mov ∨ m = .add ∨ m = .sub ∨ m = .cmp ∨ m = .bis ∨ m = .xor

/-- The destination is register q and the instruction writes its destination. -/
def writesReg (m : Mnemonic) (dst : Dst) (q : Reg) : Prop := m ≠ .cmp ∧ dst = .reg q

/-- Bits 3 to 7 and 9 to 15 of sr: GIE, CPUOFF, OSCOFF, SCG0, SCG1 and the reserved bits (R27). -/
def storageBit (k : Nat) : Prop := (3 ≤ k ∧ k ≤ 7) ∨ (9 ≤ k ∧ k ≤ 15)

/-- Two states that may differ in the storage bits of sr only (R29). -/
def sameButStorage (s t : State) : Prop :=
  (∀ q, q ≠ Reg.sr → s.reg q = t.reg q) ∧ s.mem = t.mem ∧ s.run = t.run ∧ s.draws = t.draws ∧
  ∀ k, ¬ storageBit k → s.sr.getLsbD k = t.sr.getLsbD k

/-- No operand of the instruction is sr in Register mode, so nothing reads or writes sr as a word (R28). -/
def leavesSrAlone (i : Instr) : Prop :=
  match i.shape with
  | .two _ src dst => src ≠ .reg Reg.sr ∧ dst ≠ .reg Reg.sr
  | .one _ op => op ≠ .reg Reg.sr
  | .none => True

/-- The step's instruction writes sr as a whole (R30). -/
def writesSr (i : Instr) : Prop :=
  ∃ w src m, i.shape = .two w src (.reg Reg.sr) ∧ i.mnemonic = some m ∧ m ≠ .cmp

/-- The step's instruction writes pc with a value of the program's (R22): a two-operand result into register 0, or CALL. -/
def writesPc (i : Instr) : Prop :=
  (∃ w src m, i.shape = .two w src (.reg Reg.pc) ∧ i.mnemonic = some m ∧ m ≠ .cmp) ∨ ∃ w op, i = .call w op

/-- The bytes the decoder is given for the instruction at an address (R57, R67). -/
def bytesAt (s : State) (a : Word) : List Byte :=
  [s.readByte a, s.readByte (a + 1#16), s.readByte (a + 2#16), s.readByte (a + 3#16), s.readByte (a + 4#16),
    s.readByte (a + 5#16)]

/-- The segment covers the address (R64). -/
def covers (g : Segment) (a : Nat) : Prop := g.address ≤ a ∧ a < g.address + g.length

end Sys2Proof.Claims

open Sys2Proof Sys2Proof.Machine Sys2Proof.Claims

/-! ## Encoding (spec/30_encoding.md) -/

/-- Decode and encode agree: every operand at every value the encoding admits, and the bytes after the instruction are left. -/
def Obligations.DecodeOfEncodeIsTheInstruction : Prop :=
  ∀ (i : Instr) (rest : List Byte), i.wf = true → decode (bytesOfWords (encode i) ++ rest) = .ok (i, rest)

/-- R85, R97, R99: every instruction word has exactly one reading; it is well formed and its encoding is that word, followed by
those of the next words that it takes. -/
def Obligations.EveryWordIsTheEncodingOfItsReading : Prop :=
  ∀ w x1 x2 : Word, (decodeWords w x1 x2).wf = true ∧
    encode (decodeWords w x1 x2) = w :: [x1, x2].take (extCount w)

/-- R97: the undefined words are 0x0000..0x0FFF and 0x1380..0x1FFF, no other word is undefined, and each raises UndefinedOpcode. -/
def Obligations.UndefinedWordsAreExactlyTwoRanges : Prop :=
  ∀ (w x1 x2 : Word) (s : State),
    ((decodeWords w x1 x2).mnemonic = none ↔ (w ≤ 0x0FFF#16 ∨ (0x1380#16 ≤ w ∧ w ≤ 0x1FFF#16))) ∧
    ((decodeWords w x1 x2).mnemonic = none →
      exec (decodeWords w x1 x2) s = .next (deadWith s .undefinedOpcode (some w) none none))

/-- R84: the top nibble selects the format. -/
def Obligations.TopNibbleSelectsTheFormat : Prop :=
  ∀ w x1 x2 : Word,
    (0x4000#16 ≤ w → (decodeWords w x1 x2).format = .twoOperand) ∧
    (0x2000#16 ≤ w → w ≤ 0x3FFF#16 → (decodeWords w x1 x2).format = .jump) ∧
    (0x1000#16 ≤ w → w ≤ 0x137F#16 → (decodeWords w x1 x2).format = .singleOperand) ∧
    (w ≤ 0x0FFF#16 → (decodeWords w x1 x2).format = .undefined)

/-- R96: the length is 1 plus the extension words, 1 to 3 words for two operands, 1 or 2 for one, 1 for a jump; and it is a function
of the instruction word alone. -/
def Obligations.LengthIsAFunctionOfTheWord : Prop :=
  ∀ w x1 x2 : Word, (decodeWords w x1 x2).length = 1 + extCount w ∧
    ((decodeWords w x1 x2).format = .twoOperand → extCount w ≤ 2) ∧
    ((decodeWords w x1 x2).format = .singleOperand → extCount w ≤ 1) ∧
    ((decodeWords w x1 x2).format = .jump → extCount w = 0)

/-- R92: the constant generator's table: each cell takes no extension word and resolves, at either width, to its masked literal with
the state as it was and the record fired; the two other cells of register 2 are Register and absolute. -/
def Obligations.ConstantGeneratorTable : Prop :=
  ∀ (w : Width) (x : Word) (s : State),
    let fires := fun (r : Reg) (as : BitVec 2) (literal : Word) =>
      srcExtCount r as = 0 ∧ resolveSrc w (decodeSrc r as x) s =
        .ok { state := s, val := maskW w literal, target := .none, cg := { fired := true, literal := maskW w literal } }
    fires 2#4 0b10#2 0x0004#16 ∧ fires 2#4 0b11#2 0x0008#16 ∧
    fires 3#4 0b00#2 0x0000#16 ∧ fires 3#4 0b01#2 0x0001#16 ∧ fires 3#4 0b10#2 0x0002#16 ∧ fires 3#4 0b11#2 0xFFFF#16 ∧
    maskW .byte 0xFFFF#16 = 0x00FF#16 ∧
    decodeSrc 2#4 0b00#2 x = .reg 2#4 ∧ decodeSrc 2#4 0b01#2 x = .indexed 2#4 x

/-- Words written out from the encodings of R81 to R83 decode to the instructions they stand for. -/
def Obligations.WrittenOutWordsDecode : Prop :=
  decodeTableWord 16 0b0101010000000101 = some (.add .word (.reg 4#4) (.reg 5#4)) ∧
  decodeTableWord 48 0x00200010_5495 = some (.add .word (.indexed 4#4 0x0010#16) (.indexed 5#4 0x0020#16)) ∧
  decodeTableWord 32 0xD000_12B0 = some (.call .word (.imm 0xD000#16)) ∧
  decodeTableWord 16 0b0001000001111111 = some (.rrc .byte (.autoinc 15#4)) ∧
  decodeTableWord 16 0b0010010000000010 = some (.jeq 2#10) ∧
  decodeTableWord 16 0b0001001110000000 = some (.undefined1380 0#7)

/-! ## Memory (spec/20_memory.md) -/

/-- R58: the round-trip laws of the accessors. -/
def Obligations.AccessorRoundTrip : Prop :=
  (∀ (s : State) (a v : Word), isEven a = true →
    ∃ t, s.writeWord a v = .ok t ∧ t.readWord a = .ok v) ∧
  (∀ (s : State) (a : Word) (b : Byte), (s.writeByte a b).readByte a = b)

/-- R55, R56: a word access faults exactly at an odd address, with that address, and then writes nothing; else the low byte is at the
address and the high byte at the next. -/
def Obligations.WordAccessFaultsExactlyWhenOdd : Prop :=
  ∀ (s : State) (a v : Word),
    (a.getLsbD 0 = true → s.readWord a = .error a ∧ s.writeWord a v = .error a) ∧
    (a.getLsbD 0 = false →
      s.readWord a = .ok (s.readByte (a + 1#16) ++ s.readByte a) ∧
      ∃ t, s.writeWord a v = .ok t ∧ t.readByte a = v.extractLsb' 0 8 ∧ t.readByte (a + 1#16) = v.extractLsb' 8 8)

/-- R57: little-endian: a byte read at the even address of a word returns its low byte, at the next address its high byte. -/
def Obligations.WordsAreLittleEndian : Prop :=
  ∀ (s t : State) (a v : Word), s.writeWord a v = .ok t →
    t.readByte a = v.extractLsb' 0 8 ∧ t.readByte (a + 1#16) = v.extractLsb' 8 8 ∧
    ∀ b, b ≠ a → b ≠ a + 1#16 → t.readByte b = s.readByte b

/-- Every step keeps the canonical form of memory. The form is the model's own (log 14): memory reads 0 where nothing is listed (R52),
and lists each other byte once, by rising address. -/
def Obligations.StepKeepsMemoryCanonical : Prop :=
  ∀ s t : State, s.memCanonical → step s = .next t → t.memCanonical

/-- The memory after reset is in its canonical form, which is the model's own (log 14). -/
def Obligations.ResetMemoryIsCanonical : Prop := State.reset.memCanonical

/-- A step changes no byte of memory but those of the data writes it reports. That a write has no effect beyond its bytes is the
spec's; which writes `dataWrites` lists is the model's choice (log 7). -/
def Obligations.StepChangesOnlyReportedBytes : Prop :=
  ∀ s t : State, step s = .next t → ∀ a : Word,
    (∀ d ∈ dataWrites s, a ≠ d.addr ∧ (d.width = .word → a ≠ d.addr + 1#16)) → t.readByte a = s.readByte a

/-- The data writes a step reports (log 7) are in memory after it, each at its own width. -/
def Obligations.ReportedWritesAreStored : Prop :=
  ∀ s t : State, step s = .next t → s.run = .running → ∀ d ∈ dataWrites s, t.valueAt d.width d.addr = d.value

/-! ## Registers and the status register (spec/10_state.md) -/

/-- A register written as a destination reads back; sr takes bits 8:0; no other register, no byte of memory and not the run state
changes. The draw count, the model's own (log 3), moves on by one for sr and is else unchanged. -/
def Obligations.RegisterWriteReadsBack : Prop :=
  ∀ (s : State) (r : Reg) (v : Word),
    (r ≠ Reg.sr → (s.writeReg r v).reg r = v) ∧
    (r = Reg.sr → (s.writeReg r v).sr.extractLsb' 0 9 = v.extractLsb' 0 9) ∧
    (∀ q, q ≠ r → (s.writeReg r v).reg q = s.reg q) ∧ (s.writeReg r v).mem = s.mem ∧
    (s.writeReg r v).run = s.run ∧ (s.writeReg r v).draws = if r = Reg.sr then s.draws + 1 else s.draws

/-- R28: an individual flag write changes that one bit and no other bit of sr, and nothing else of the state. -/
def Obligations.FlagWriteChangesOneBit : Prop :=
  ∀ (s : State) (k : Nat) (b : Bool), k < 16 →
    (s.setSrBit k b).sr.getLsbD k = b ∧ (∀ j, j ≠ k → (s.setSrBit k b).sr.getLsbD j = s.sr.getLsbD j) ∧
    (∀ q, q ≠ Reg.sr → (s.setSrBit k b).reg q = s.reg q) ∧
    (s.setSrBit k b).mem = s.mem ∧ (s.setSrBit k b).run = s.run ∧ (s.setSrBit k b).draws = s.draws

/-- R29, R31: bits 3 to 7 and 9 to 15 of sr change only in a step whose instruction writes sr as a whole. -/
def Obligations.StorageBitsChangeOnlyByWholeWrite : Prop :=
  ∀ s t : State, step s = .next t → ¬ writesSr (s.instrAt s.pc) →
    ∀ k, storageBit k → t.sr.getLsbD k = s.sr.getLsbD k

/-- R29: GIE, CPUOFF, OSCOFF, SCG0, SCG1 and the reserved bits have no effect: an instruction that does not name sr as an operand
does the same, faults included, whatever they hold. -/
def Obligations.StorageBitsHaveNoEffect : Prop :=
  ∀ (i : Instr) (s s' : State), i.wf = true → leavesSrAlone i → sameButStorage s s' →
    ∃ t t', exec i s = .next t ∧ exec i s' = .next t' ∧ sameButStorage t t'

/-- R31, R37: before the first whole write of sr the reserved bits are 0: an invariant (log 3: `draws` counts the whole writes). -/
def Obligations.ReservedBitsAreZeroBeforeTheFirstDraw : Prop :=
  (State.reset.draws = 0 ∧ State.reset.srReserved = 0#7) ∧
  ∀ s t : State, (s.draws = 0 → s.srReserved = 0#7) → step s = .next t → (t.draws = 0 → t.srReserved = 0#7)

/-- A whole write of sr by any of MOV, ADD, SUB, BIS and XOR (log 3, the model's choice of form: the drawn bits are
`Config.drawReserved` of the draw count): bits 15:9 are a free value whose index moves on, bits 7:3 are those of the result, and for
MOV and BIS, which write no flag, all of bits 8:0 are. The statement holds whatever the drawn value is. -/
def Obligations.WholeWriteDrawsReservedBits : Prop :=
  ∀ (w : Width) (src : Src) (s : State), src.wf = true → oddAt w (srcEA src s) = none →
    let a := srcValue w src s
    let b := dstValue w src (.reg Reg.sr) s
    let draws := fun (i : Instr) (r : Word) (written : Nat → Prop) =>
      ∃ t, exec i s = .next t ∧ t.srReserved = Config.drawReserved s.draws ∧ t.draws = s.draws + 1 ∧
        ∀ k, written k → t.sr.getLsbD k = r.getLsbD k
    draws (.mov w src (.reg Reg.sr)) a (fun k => k ≤ 8) ∧
    draws (.add w src (.reg Reg.sr)) (maskW w (a + b)) (fun k => 3 ≤ k ∧ k ≤ 7) ∧
    draws (.sub w src (.reg Reg.sr)) (maskW w (b - a)) (fun k => 3 ≤ k ∧ k ≤ 7) ∧
    draws (.bis w src (.reg Reg.sr)) (a ||| b) (fun k => k ≤ 8) ∧
    draws (.xor w src (.reg Reg.sr)) (a ^^^ b) (fun k => 3 ≤ k ∧ k ≤ 7)

/-! ## Operands (spec/40_operand_resolution.md) -/

/-- R126, R129, R134: an autoincremented source is read at the old register, which then moves by 1 at byte width and 2 at word
width; a result written to that same register replaces the increment. -/
def Obligations.AutoincrementReadsThenMoves : Prop :=
  ∀ (w : Width) (r d : Reg) (s : State),
    r ≠ Reg.pc → r ≠ Reg.sr → r ≠ Reg.cg → d ≠ Reg.pc → d ≠ Reg.sr → (w = .byte ∨ isEven (s.reg r) = true) →
    ∃ t, exec (.mov w (.autoinc r) (.reg d)) s = .next t ∧ t.reg d = s.valueAt w (s.reg r) ∧
      (r ≠ d → t.reg r = s.reg r + (if w = .byte then 1#16 else 2#16)) ∧ t.pc = s.pc + 2#16

/-- R124, R132: the base of an Indexed source is the register; the address of the extension word for register 0; 0 for register 2.
Register 3 is no base (R90). -/
def Obligations.IndexedSourceAddress : Prop :=
  ∀ (w : Width) (r d : Reg) (x : Word) (s : State), r ≠ Reg.cg → d ≠ Reg.pc → d ≠ Reg.sr →
    let base := if r = Reg.pc then s.pc + 2#16 else if r = Reg.sr then 0#16 else s.reg r
    (w = .byte ∨ isEven (base + x) = true) →
    ∃ t, exec (.mov w (.indexed r x) (.reg d)) s = .next t ∧ t.reg d = s.valueAt w (base + x) ∧ t.pc = s.pc + 4#16

/-- R134, R132: a destination sees the source's side effects: the base after an autoincrement is the higher value, a Register
destination adds to it, and the second symbolic operand is based on the second extension word. -/
def Obligations.DestinationSeesTheSourceSideEffects : Prop :=
  ∀ (r : Reg) (x y : Word) (s : State), r ≠ Reg.pc → r ≠ Reg.sr → r ≠ Reg.cg →
    (∃ t, exec (.mov .byte (.autoinc r) (.indexed r x)) s = .next t ∧
      t.readByte (s.reg r + 1#16 + x) = s.readByte (s.reg r)) ∧
    (∃ t, exec (.mov .byte (.indexed Reg.pc x) (.indexed Reg.pc y)) s = .next t ∧
      t.readByte (s.pc + 4#16 + y) = s.readByte (s.pc + 2#16 + x)) ∧
    (isEven (s.reg r) = true →
      ∃ t, exec (.add .word (.autoinc r) (.reg r)) s = .next t ∧ t.reg r = s.wordAt (s.reg r) + (s.reg r + 2#16))

/-! ## Two-operand instructions (spec/42_two_operand.md) -/

/-- R180: MOV copies the source to the destination, writes no flag, and redirects pc when the destination is pc itself. -/
def Obligations.MovCopiesTheSource : Prop :=
  ∀ (w : Width) (src : Src) (dst : Dst) (s : State), readable (.mov w src dst) s →
    ∃ t, exec (.mov w src dst) s = .next t ∧ t.run = s.run ∧
      match dst with
      | .reg d =>
        (d ≠ Reg.sr → t.reg d = srcValue w src s ∧ t.sr = s.sr) ∧
        (d = Reg.sr → t.sr.extractLsb' 0 9 = (srcValue w src s).extractLsb' 0 9) ∧
        (d ≠ Reg.pc → t.pc = nextPc (.mov w src dst) s)
      | .indexed _ _ =>
        t.pc = nextPc (.mov w src dst) s ∧ t.sr = s.sr ∧
        ∀ ea, dstEA w src dst s = some ea → t.valueAt w ea = srcValue w src s

/-- R181, R159, R157: ADD stores the w-bit sum and sets C, Z, N, V by the arithmetic rule. -/
def Obligations.AddStoresTheSumAndFlags : Prop :=
  ∀ (w : Width) (src : Src) (dst : Dst) (s : State), readable (.add w src dst) s →
    let n := widthBits w
    let a := (srcValue w src s).toNat
    let b := (dstValue w src dst s).toNat
    let r := (a + b) % 2 ^ n
    ∃ t, exec (.add w src dst) s = .next t ∧ t.run = s.run ∧
      resultUnderFlags (.add w src dst) w src dst s t (BitVec.ofNat 16 r) ∧
      flagsAre t (decide (2 ^ n ≤ a + b)) (decide (r = 0)) (r.testBit (n - 1))
        (a.testBit (n - 1) == b.testBit (n - 1) && r.testBit (n - 1) != a.testBit (n - 1))

/-- R160, R184: SUB and CMP use the arithmetic rule on the negated source and the destination; SUB stores dst - src; and the corners:
C is "no borrow" except that a zero source gives C = 0 and V = 0, and the most negative source gives V = the destination's sign. -/
def Obligations.SubAndCmpFollowTheSubtractionRule : Prop :=
  ∀ (w : Width) (src : Src) (dst : Dst) (s : State), readable (.sub w src dst) s →
    let n := widthBits w
    let a := (srcValue w src s).toNat
    let b := (dstValue w src dst s).toNat
    let neg := (2 ^ n - a) % 2 ^ n
    let r := (b + 2 ^ n - a) % 2 ^ n
    ∃ t u, exec (.sub w src dst) s = .next t ∧ exec (.cmp w src dst) s = .next u ∧ t.run = s.run ∧
      resultUnderFlags (.sub w src dst) w src dst s t (BitVec.ofNat 16 r) ∧
      flagsAre t (decide (2 ^ n ≤ neg + b)) (decide (r = 0)) (r.testBit (n - 1))
        (neg.testBit (n - 1) == b.testBit (n - 1) && r.testBit (n - 1) != neg.testBit (n - 1)) ∧
      flagsAre u t.flagC t.flagZ t.flagN t.flagV ∧
      (a ≠ 0 → (t.flagC = true ↔ a ≤ b)) ∧ (a = 0 → t.flagC = false ∧ t.flagV = false) ∧
      (a = 2 ^ (n - 1) → t.flagV = b.testBit (n - 1))

/-- R185: CMP sets C, Z, N, V to the values SUB would give, writes no register but pc, sr and an autoincremented one, and no byte of
memory. -/
def Obligations.CmpSetsTheFlagsOfSubAndWritesNothing : Prop :=
  ∀ (w : Width) (src : Src) (dst : Dst) (s : State), readable (.cmp w src dst) s →
    ∃ t u, exec (.cmp w src dst) s = .next t ∧ exec (.sub w src dst) s = .next u ∧
      flagsAre t u.flagC u.flagZ u.flagN u.flagV ∧ t.mem = s.mem ∧ t.run = s.run ∧
      t.pc = nextPc (.cmp w src dst) s ∧
      (∀ q, q ≠ Reg.pc → q ≠ Reg.sr → t.reg q = if src = .autoinc q then s.reg q + incBy w else s.reg q) ∧
      ∀ k, storageBit k → t.sr.getLsbD k = s.sr.getLsbD k

/-- R189: BIS stores the bitwise OR and writes no flag. -/
def Obligations.BisStoresTheOrAndNoFlags : Prop :=
  ∀ (w : Width) (src : Src) (dst : Dst) (s : State), readable (.bis w src dst) s →
    ∃ t, exec (.bis w src dst) s = .next t ∧ t.run = s.run ∧
      resultNoFlags (.bis w src dst) w src dst s t (srcValue w src s ||| dstValue w src dst s)

/-- R190, R161: XOR stores the exclusive OR; Z, N by the result, C = NOT Z, V = 0. -/
def Obligations.XorStoresTheXorAndLogicalFlags : Prop :=
  ∀ (w : Width) (src : Src) (dst : Dst) (s : State), readable (.xor w src dst) s →
    let r := srcValue w src s ^^^ dstValue w src dst s
    ∃ t, exec (.xor w src dst) s = .next t ∧ t.run = s.run ∧
      resultUnderFlags (.xor w src dst) w src dst s t r ∧
      flagsAre t (decide (r ≠ 0#16)) (decide (r = 0#16)) (r.getLsbD (widthBits w - 1)) false

/-- The frame of MOV, ADD, SUB, CMP, BIS and XOR: no register but the destination, an autoincremented source register, pc and sr; sr
only by flags or as the destination; no byte of memory outside the destination's; no draw without a whole write of sr. -/
def Obligations.TwoOperandFrame : Prop :=
  ∀ (i : Instr) (m : Mnemonic) (w : Width) (src : Src) (dst : Dst) (s t : State),
    i.shape = .two w src dst → i.mnemonic = some m → executesTwo m → readable i s → exec i s = .next t →
    t.run = s.run ∧
    (∀ q, q ≠ Reg.pc → q ≠ Reg.sr → ¬ writesReg m dst q →
      t.reg q = if src = .autoinc q then s.reg q + incBy w else s.reg q) ∧
    (¬ writesReg m dst Reg.sr → t.draws = s.draws ∧ ∀ k, storageBit k → t.sr.getLsbD k = s.sr.getLsbD k) ∧
    (m = .mov ∨ m = .bis → ¬ writesReg m dst Reg.sr → t.sr = s.sr) ∧
    (m = .cmp ∨ dstEA w src dst s = none → ∀ b, t.readByte b = s.readByte b) ∧
    (∀ ea, dstEA w src dst s = some ea →
      ∀ b, b ≠ ea → (w = .word → b ≠ ea + 1#16) → t.readByte b = s.readByte b)

/-- R34: a byte-width result clears bits 15:8 of a register it is written to (sr and pc apart, which have their own rules). -/
def Obligations.ByteResultClearsTheHighByte : Prop :=
  ∀ (i : Instr) (m : Mnemonic) (src : Src) (d : Reg) (s t : State),
    i.shape = .two .byte src (.reg d) → i.mnemonic = some m → executesTwo m → m ≠ .cmp →
    d ≠ Reg.pc → d ≠ Reg.sr → readable i s → exec i s = .next t → (t.reg d).extractLsb' 8 8 = 0#8

/-- R164: ADD, SUB, XOR or BIS into register 0 ends with the result + 2 in pc; CMP advances normally. -/
def Obligations.ResultIntoPcIsAdvanced : Prop :=
  ∀ (w : Width) (src : Src) (s : State), src.wf = true → oddAt w (srcEA src s) = none →
    let b := (dstValue w src (.reg Reg.pc) s)
    (∃ t, exec (.add w src (.reg Reg.pc)) s = .next t ∧ t.pc = maskW w (srcValue w src s + b) + 2#16) ∧
    (∃ t, exec (.sub w src (.reg Reg.pc)) s = .next t ∧ t.pc = maskW w (b - srcValue w src s) + 2#16) ∧
    (∃ t, exec (.xor w src (.reg Reg.pc)) s = .next t ∧ t.pc = (srcValue w src s ^^^ b) + 2#16) ∧
    (∃ t, exec (.bis w src (.reg Reg.pc)) s = .next t ∧ t.pc = (srcValue w src s ||| b) + 2#16) ∧
    (∃ t, exec (.cmp w src (.reg Reg.pc)) s = .next t ∧ t.pc = nextPc (.cmp w src (.reg Reg.pc)) s)

/-- R182, R183, R186, R187, R188, R191: the two-operand mnemonics with no handler raise UnimplementedOpcode once their operands
resolve; the state is unchanged and the run dead. -/
def Obligations.UnimplementedTwoOperandsRaise : Prop :=
  ∀ (w : Width) (src : Src) (dst : Dst) (s : State),
    let dies := fun (i : Instr) (m : Mnemonic) => readable i s →
      exec i s = .next (deadWith s .unimplementedOpcode (some i.word) (some m) none)
    dies (.addc w src dst) .addc ∧ dies (.subc w src dst) .subc ∧ dies (.dadd w src dst) .dadd ∧
    dies (.bit w src dst) .bit ∧ dies (.bic w src dst) .bic ∧ dies (.and w src dst) .and

/-! ## Single-operand instructions (spec/43_single_operand.md) -/

/-- R205: CALL transfers to the operand, pushes the address after the whole instruction below sp, and writes no flag and nothing
else but an autoincremented register. -/
def Obligations.CallPushesAndTransfers : Prop :=
  ∀ (w : Width) (op : Src) (s : State), readable (.call w op) s → isEven (callPushAddr w op s) = true →
    ∃ t, exec (.call w op) s = .next t ∧ t.run = s.run ∧ t.draws = s.draws ∧
      t.pc = srcValue w op s ∧ t.sp = callPushAddr w op s ∧
      t.wordAt (callPushAddr w op s) = nextPc (.call w op) s ∧
      (∀ b, b ≠ callPushAddr w op s → b ≠ callPushAddr w op s + 1#16 → t.readByte b = s.readByte b) ∧
      ∀ q, q ≠ Reg.pc → q ≠ Reg.sp → t.reg q = if op = .autoinc q then s.reg q + incBy w else s.reg q

/-- R205, R243: the CALL push at an odd address raises AlignmentFault with that address, and nothing is committed. -/
def Obligations.CallPushAtOddAddressFaults : Prop :=
  ∀ (w : Width) (op : Src) (s : State), readable (.call w op) s → isEven (callPushAddr w op s) = false →
    exec (.call w op) s = .next (deadWith s .alignmentFault (some (Instr.word (.call w op))) (some .call) (some (callPushAddr w op s)))

/-- R200 to R204, R206: the single-operand mnemonics with no handler raise UnimplementedOpcode once their operand resolves. -/
def Obligations.UnimplementedSingleOperandsRaise : Prop :=
  ∀ (w : Width) (op : Src) (s : State),
    let dies := fun (i : Instr) (m : Mnemonic) => readable i s →
      exec i s = .next (deadWith s .unimplementedOpcode (some i.word) (some m) none)
    dies (.rrc w op) .rrc ∧ dies (.swpb w op) .swpb ∧ dies (.rra w op) .rra ∧
    dies (.sxt w op) .sxt ∧ dies (.push w op) .push ∧ dies (.reti w op) .reti

/-! ## Jumps (spec/44_jumps.md) -/

/-- R227, R228, R89: JMP ends at instruction address + 2 + 2 × offset, and changes nothing else. -/
def Obligations.JmpAddsTheScaledOffset : Prop :=
  ∀ (off : BitVec 10) (s : State),
    ∃ t, exec (.jmp off) s = .next t ∧ t.pc = BitVec.ofInt 16 (s.pc.toNat + 2 + 2 * off.toInt) ∧
      (∀ q, q ≠ Reg.pc → t.reg q = s.reg q) ∧ t.mem = s.mem ∧ t.run = s.run ∧ t.draws = s.draws

/-- R221, R228: JEQ jumps when Z is set and else only advances; it reads no other flag and changes nothing else. -/
def Obligations.JeqJumpsWhenZIsSet : Prop :=
  ∀ (off : BitVec 10) (s : State),
    ∃ t, exec (.jeq off) s = .next t ∧
      t.pc = (if s.sr.getLsbD 1 = true then BitVec.ofInt 16 (s.pc.toNat + 2 + 2 * off.toInt) else s.pc + 2#16) ∧
      (∀ q, q ≠ Reg.pc → t.reg q = s.reg q) ∧ t.mem = s.mem ∧ t.run = s.run ∧ t.draws = s.draws

/-- R227, R276: `JMP $`, offset -1, is a step whose end state equals its start state. -/
def Obligations.JmpToItselfChangesNothing : Prop := ∀ s : State, exec (.jmp 0x3FF#10) s = .next s

/-- R220, R222 to R226: the jumps with no handler raise UnimplementedOpcode, whatever the flags are. -/
def Obligations.UnimplementedJumpsRaise : Prop :=
  ∀ (off : BitVec 10) (s : State),
    let dies := fun (i : Instr) (m : Mnemonic) =>
      exec i s = .next (deadWith s .unimplementedOpcode (some i.word) (some m) none)
    dies (.jne off) .jne ∧ dies (.jnc off) .jnc ∧ dies (.jc off) .jc ∧
    dies (.jn off) .jn ∧ dies (.jge off) .jge ∧ dies (.jl off) .jl

/-! ## Faults and the step (spec/41_execution_engine.md, 60_exceptions.md) -/

/-- R241: every undefined word raises UndefinedOpcode, which records the instruction address and the word. -/
def Obligations.UndefinedWordsRaise : Prop :=
  ∀ s : State,
    let dies := fun (i : Instr) (w : Word) =>
      exec i s = .next (deadWith s .undefinedOpcode (some w) none none)
    (∀ low, dies (.undefined0 low) (0x0#4 ++ low)) ∧ (∀ low, dies (.undefined1380 low) (0x027#9 ++ low)) ∧
    (∀ low, dies (.undefined1400 low) (0b000101#6 ++ low)) ∧ (∀ low, dies (.undefined1800 low) (0b00011#5 ++ low))

/-- R135, R154, R248: a misaligned operand raises AlignmentFault with its address, the source's before the destination's, for every
instruction, implemented or not; nothing is committed. -/
def Obligations.MisalignedOperandFaults : Prop :=
  ∀ (i : Instr) (s : State) (a : Word), i.wf = true → oddOperand i s = some a →
    exec i s = .next (deadWith s .alignmentFault (some i.word) i.mnemonic (some a))

/-- When the bytes at pc decode to an instruction, step is exec of it; nothing is added around exec. -/
def Obligations.StepRunsTheDecodedInstruction : Prop :=
  ∀ (s : State) (i : Instr) (rest : List Byte), s.run = .running → Config.ioLimit < s.pc → isEven s.pc = true →
    decode (bytesAt s s.pc) = .ok (i, rest) → step s = exec i s

/-- R151: the fetch faults: at or below 0x01FF whatever the alignment, else at an odd pc; neither reads a word. -/
def Obligations.FetchFaults : Prop :=
  ∀ s : State, s.run = .running →
    (s.pc ≤ 0x01FF#16 → step s = .next (deadWith s .peripheralFetchFault none none none)) ∧
    (0x01FF#16 < s.pc → isEven s.pc = false → step s = .next (deadWith s .alignmentFault none none (some s.pc)))

/-- R36: a step requested of a dead block performs nothing and returns the same record, any number of times. -/
def Obligations.DeadBlockStaysAsItIs : Prop :=
  ∀ (s : State) (x : FaultRecord) (n : Nat), s.run = .dead x →
    Host.Core.run Sys2Proof.core n s = Host.Outcome.next s ∧ stepReport s = .fault x

/-- Every step of every state answers a next state: none is refused and none answers a fault outcome. That the step that faults is such
a next state too is the model's reading of R246 (log 1), and that a dead block's step is one, in which nothing changes, log 2's. -/
def Obligations.EveryStepAnswersNext : Prop := ∀ s : State, ∃ t, step s = .next t

/-- R248: a step of a running block faults exactly when, and as, the priority list says; otherwise the block runs on. -/
def Obligations.StepFaultsExactlyByPriority : Prop :=
  ∀ s : State, s.run = .running →
    ∃ t, step s = .next t ∧
      match stepFault s with
      | some x => t = { s with run := .dead x }
      | none => t.run = .running

/-- R246, R249: a step that faults commits nothing: the state is the one before it but for the run state, the record's pc is the
instruction's address, the step returns the record, and every later step returns it again and changes nothing. -/
def Obligations.FaultCommitsNothing : Prop :=
  ∀ (s t : State) (x : FaultRecord) (n : Nat), s.run = .running → step s = .next t → t.run = .dead x →
    t = { s with run := .dead x } ∧ x.pc = s.pc ∧ stepReport s = .fault x ∧
    Host.Core.run Sys2Proof.core n t = Host.Outcome.next t ∧ stepReport t = .fault x

/-- R247: what a record carries: the address of the instruction word; that word, unless the fetch faulted; the mnemonic, once decoded;
an odd access address for an AlignmentFault only. -/
def Obligations.FaultRecordCarriesTheContext : Prop :=
  ∀ (s t : State) (x : FaultRecord), s.run = .running → step s = .next t → t.run = .dead x →
    x.pc = s.pc ∧
    (x.word = none ↔ s.pc ≤ 0x01FF#16 ∨ isEven s.pc = false) ∧
    (x.word = none → x.mnemonic = none ∧ (x.kind = .peripheralFetchFault ∨ x.kind = .alignmentFault)) ∧
    (x.word ≠ none → x.word = some (s.wordAt s.pc) ∧ x.mnemonic = (s.instrAt s.pc).mnemonic) ∧
    (x.kind = .alignmentFault ↔ ∃ a, x.accessAddr = some a ∧ a.getLsbD 0 = true) ∧
    (x.kind ≠ .alignmentFault → x.accessAddr = none) ∧
    (x.kind = .unimplementedOpcode → x.mnemonic ≠ none) ∧ (x.kind = .undefinedOpcode → x.mnemonic = none)

/-- R22: after a fault-free step pc is even, unless the instruction wrote pc with a value of the program's. -/
def Obligations.PcStaysEvenUnlessWritten : Prop :=
  ∀ s t : State, s.run = .running → step s = .next t → t.run = .running → ¬ writesPc (s.instrAt s.pc) →
    isEven t.pc = true

/-- R166, R35: a fault-free step reports the instruction address, the word fetched there, the format, the mnemonic, the fields and the
resolver's outputs (the operand values, the location with its effective address, and the constant-generator record of R128). -/
def Obligations.FaultFreeStepReportsTheInstruction : Prop :=
  ∀ s t : State, s.run = .running → step s = .next t → t.run = .running →
    let i := s.instrAt s.pc
    stepReport s = .ok s.pc (s.wordAt s.pc) i.format i.mnemonic i (operandsInClosedForm i s) ∧ i.word = s.wordAt s.pc ∧
      match i.shape with
      | .two w (.const c) _ | .one w (.const c) => (operandsInClosedForm i s).cg = { fired := true, literal := maskW w c.literal }
      | .two _ _ _ | .one _ _ | .none => (operandsInClosedForm i s).cg = { fired := false, literal := 0#16 }

/-- R12: decode-for-display reports the fault kind exactly where a step there would fault; elsewhere the format, mnemonic and fields of
the instruction there and the operands the resolver gives for it with pc at its address. That it ignores the run state, and which
faults it looks for, is log 8's (the model's choice). -/
def Obligations.DisplayReportsTheFaultAStepWouldRaise : Prop :=
  ∀ (s : State) (a : Word),
    match stepFault { s.setPc a with run := .running } with
    | some x => displayAt s a = .fault x.kind
    | none => displayAt s a =
        .instr (s.instrAt a).format (s.instrAt a).mnemonic (s.instrAt a) (operandsInClosedForm (s.instrAt a) (s.setPc a))

/-! ## Reset and loading (spec/70_reset_and_hazards.md, 20_memory.md R64) -/

/-- R270, R37: after creation every register and every memory byte is 0 and the run state is Running. -/
def Obligations.ResetZeroesEverything : Prop :=
  (∀ r : Reg, State.reset.reg r = 0#16) ∧ (∀ a : Word, State.reset.readByte a = 0#8) ∧ State.reset.run = .running

/-- R271, R64: a valid launch loads every segment, leaves every other byte 0 and every register but pc 0, runs, and sets pc from the
word at 0xFFFE. That its memory is in canonical form is no rule of the spec: the form is the model's own (log 14). -/
def Obligations.LaunchLoadsSegmentsAndVector : Prop :=
  ∀ (image : List Byte) (segments : List Segment),
    segments.all (Segment.inRange image) = true → segmentsDisjoint segments = true →
    ∃ t, launch image segments = .next t ∧ t.run = .running ∧ t.memCanonical ∧
      t.pc = t.wordAt 0xFFFE#16 ∧ (∀ r, r ≠ Reg.pc → t.reg r = 0#16) ∧
      (∀ g ∈ segments, ∀ k, k < g.length →
        t.readByte (BitVec.ofNat 16 (g.address + k)) = image.getD (g.offset + k) 0#8) ∧
      ∀ a : Word, (∀ g ∈ segments, ¬ covers g a.toNat) → t.readByte a = 0#8

/-- R64: a launch is refused when a segment runs out of memory or of the image, and when two segments share an address. That the first
is answered where both hold, and the two names, are the model's choice (log 9). -/
def Obligations.InvalidLaunchIsRefused : Prop :=
  ∀ (image : List Byte) (segments : List Segment),
    ((∃ g ∈ segments, 0x10000 < g.address + g.length ∨ image.length < g.offset + g.length) →
      launch image segments = .refused .segmentOutOfRange) ∧
    ((∀ g ∈ segments, g.address + g.length ≤ 0x10000 ∧ g.offset + g.length ≤ image.length) →
      (∃ (g h : Segment) (a : Nat), [g, h].Sublist segments ∧ covers g a ∧ covers h a) →
      launch image segments = .refused .segmentsOverlap)

/-- R64: segments may be loaded in any order: a valid launch is the same in every order of its segments. -/
def Obligations.SegmentOrderDoesNotMatter : Prop :=
  ∀ (image : List Byte) (xs ys : List Segment), xs.Perm ys →
    xs.all (Segment.inRange image) = true → segmentsDisjoint xs = true → launch image xs = launch image ys

/-- R272: an image with 0x42, 0xF8 at 0xFFFE starts at 0xF842. -/
def Obligations.ResetVectorExample : Prop :=
  ∃ t, launch [0x42#8, 0xF8#8] [{ offset := 0, address := 0xFFFE, length := 2 }] = .next t ∧ t.pc = 0xF842#16 ∧
    (∀ r, r ≠ Reg.pc → t.reg r = 0#16) ∧ t.run = .running

/-- `withFetchWord` (log 5, the model's choice of where a program is placed): from the reset state, the very next step runs the
placed instruction, for every word. -/
def Obligations.PlacedWordRunsNext : Prop :=
  ∀ w : Word, step (State.reset.withFetchWord 16 w.toNat) =
    exec (decodeWords w 0#16 0#16) (State.reset.withFetchWord 16 w.toNat)
end

