-- ==== Sys2Proof/Laws/Decode.lean ====
section
/-! SUPPORT. The fields of an encoded word, and operand fields read back (spec/30_encoding.md R81 to R94). -/

namespace Sys2Proof

/-! ## Fields of the three layouts (R81 to R83) -/

theorem two_op (op : BitVec 4) (w : Width) (src : Src) (dst : Dst) : field (twoOperandWord op w src dst) 12 4 = op := by
  unfold field twoOperandWord
  apply BitVec.eq_of_getLsbD_eq
  intro i hi
  simp only [BitVec.getLsbD_extractLsb', BitVec.getLsbD_append]
  interval_cases i <;> simp

theorem two_sreg (op : BitVec 4) (w : Width) (src : Src) (dst : Dst) :
    field (twoOperandWord op w src dst) 8 4 = src.regField := by
  unfold field twoOperandWord
  apply BitVec.eq_of_getLsbD_eq
  intro i hi
  simp only [BitVec.getLsbD_extractLsb', BitVec.getLsbD_append]
  interval_cases i <;> simp

theorem two_ad (op : BitVec 4) (w : Width) (src : Src) (dst : Dst) :
    field (twoOperandWord op w src dst) 7 1 = dst.adField := by
  unfold field twoOperandWord
  apply BitVec.eq_of_getLsbD_eq
  intro i hi
  simp only [BitVec.getLsbD_extractLsb', BitVec.getLsbD_append]
  interval_cases i; simp

theorem two_bw (op : BitVec 4) (w : Width) (src : Src) (dst : Dst) :
    field (twoOperandWord op w src dst) 6 1 = w.bw := by
  unfold field twoOperandWord
  apply BitVec.eq_of_getLsbD_eq
  intro i hi
  simp only [BitVec.getLsbD_extractLsb', BitVec.getLsbD_append]
  interval_cases i; simp

theorem two_as (op : BitVec 4) (w : Width) (src : Src) (dst : Dst) :
    field (twoOperandWord op w src dst) 4 2 = src.asField := by
  unfold field twoOperandWord
  apply BitVec.eq_of_getLsbD_eq
  intro i hi
  simp only [BitVec.getLsbD_extractLsb', BitVec.getLsbD_append]
  interval_cases i <;> simp

theorem two_dreg (op : BitVec 4) (w : Width) (src : Src) (dst : Dst) :
    field (twoOperandWord op w src dst) 0 4 = dst.regField := by
  unfold field twoOperandWord
  apply BitVec.eq_of_getLsbD_eq
  intro i hi
  simp only [BitVec.getLsbD_extractLsb', BitVec.getLsbD_append]
  interval_cases i <;> simp

theorem one_op (op : BitVec 9) (w : Width) (src : Src) : field (singleOperandWord op w src) 7 9 = op := by
  unfold field singleOperandWord
  apply BitVec.eq_of_getLsbD_eq
  intro i hi
  simp only [BitVec.getLsbD_extractLsb', BitVec.getLsbD_append]
  interval_cases i <;> simp

theorem one_nibble (op : BitVec 9) (w : Width) (src : Src) :
    field (singleOperandWord op w src) 12 4 = op.extractLsb' 5 4 := by
  unfold field singleOperandWord
  apply BitVec.eq_of_getLsbD_eq
  intro i hi
  simp only [BitVec.getLsbD_extractLsb', BitVec.getLsbD_append]
  interval_cases i <;> simp

theorem one_bw (op : BitVec 9) (w : Width) (src : Src) : field (singleOperandWord op w src) 6 1 = w.bw := by
  unfold field singleOperandWord
  apply BitVec.eq_of_getLsbD_eq
  intro i hi
  simp only [BitVec.getLsbD_extractLsb', BitVec.getLsbD_append]
  interval_cases i; simp

theorem one_as (op : BitVec 9) (w : Width) (src : Src) : field (singleOperandWord op w src) 4 2 = src.asField := by
  unfold field singleOperandWord
  apply BitVec.eq_of_getLsbD_eq
  intro i hi
  simp only [BitVec.getLsbD_extractLsb', BitVec.getLsbD_append]
  interval_cases i <;> simp

theorem one_reg (op : BitVec 9) (w : Width) (src : Src) : field (singleOperandWord op w src) 0 4 = src.regField := by
  unfold field singleOperandWord
  apply BitVec.eq_of_getLsbD_eq
  intro i hi
  simp only [BitVec.getLsbD_extractLsb', BitVec.getLsbD_append]
  interval_cases i <;> simp

theorem jump_cond (cond : BitVec 3) (off : BitVec 10) : field (jumpWord cond off) 10 3 = cond := by
  unfold field jumpWord
  apply BitVec.eq_of_getLsbD_eq
  intro i hi
  simp only [BitVec.getLsbD_extractLsb', BitVec.getLsbD_append]
  interval_cases i <;> simp

theorem jump_off (cond : BitVec 3) (off : BitVec 10) : field (jumpWord cond off) 0 10 = off := by
  unfold field jumpWord
  apply BitVec.eq_of_getLsbD_eq
  intro i hi
  simp only [BitVec.getLsbD_extractLsb', BitVec.getLsbD_append]
  interval_cases i <;> simp

theorem jump_nibble (cond : BitVec 3) (off : BitVec 10) :
    field (jumpWord cond off) 12 4 = 0b001#3 ++ cond.extractLsb' 2 1 := by
  unfold field jumpWord
  apply BitVec.eq_of_getLsbD_eq
  intro i hi
  simp only [BitVec.getLsbD_extractLsb', BitVec.getLsbD_append]
  interval_cases i <;> simp

/-! ## Operand fields read back -/

@[simp] theorem widthOfBit_bw (w : Width) : widthOfBit w.bw = w := by cases w <;> rfl

theorem bw_widthOfBit (b : BitVec 1) : (widthOfBit b).bw = b := by revert b; decide

/-- A well-formed source operand's fields and extension word decode to it (R90, R92, R94). -/
theorem decodeSrc_fields {src : Src} (hwf : src.wf = true) (rest : List Word) (d : Word) :
    decodeSrc src.regField src.asField ((src.ext ++ rest).headD d) = src := by
  cases src with
  | reg r =>
    have h : r ≠ Reg.cg := by simpa [Src.wf] using hwf
    simp [decodeSrc, Src.regField, Src.asField, h]
  | indexed r x =>
    have h : r ≠ Reg.cg := by simpa [Src.wf] using hwf
    simp [decodeSrc, Src.regField, Src.asField, Src.ext, h]
  | indirect r =>
    have h : r ≠ Reg.sr ∧ r ≠ Reg.cg := by simpa [Src.wf] using hwf
    simp [decodeSrc, Src.regField, Src.asField, h]
  | autoinc r =>
    have h : (r ≠ Reg.pc ∧ r ≠ Reg.sr) ∧ r ≠ Reg.cg := by simpa [Src.wf] using hwf
    simp [decodeSrc, Src.regField, Src.asField, h]
  | imm n => rfl
  | const c => cases c <;> rfl

/-- The fields of a well-formed source operand call for as many extension words as it has (R94). -/
theorem srcExtCount_fields {src : Src} (hwf : src.wf = true) :
    srcExtCount src.regField src.asField = src.ext.length := by
  cases src with
  | reg r =>
    have h : r ≠ Reg.cg := by simpa [Src.wf] using hwf
    simp [srcExtCount, Src.regField, Src.asField, Src.ext, h]
  | indexed r x =>
    have h : r ≠ Reg.cg := by simpa [Src.wf] using hwf
    simp [srcExtCount, Src.regField, Src.asField, Src.ext, h]
  | indirect r =>
    have h : r ≠ Reg.sr ∧ r ≠ Reg.cg := by simpa [Src.wf] using hwf
    simp [srcExtCount, Src.regField, Src.asField, Src.ext, h]
  | autoinc r =>
    have h : (r ≠ Reg.pc ∧ r ≠ Reg.sr) ∧ r ≠ Reg.cg := by simpa [Src.wf] using hwf
    simp [srcExtCount, Src.regField, Src.asField, Src.ext, h]
  | imm n => rfl
  | const c => cases c <;> rfl

/-- A destination's fields and extension word decode to it (R91, R94). -/
theorem decodeDst_fields (dst : Dst) (rest : List Word) (d : Word) :
    decodeDst dst.regField dst.adField ((dst.ext ++ rest).headD d) = dst := by
  cases dst <;> rfl

theorem dstExtCount_fields (dst : Dst) : dstExtCount dst.adField = dst.ext.length := by
  cases dst <;> rfl

theorem length_ext_src_le (src : Src) : src.ext.length ≤ 1 := by cases src <;> simp [Src.ext]
theorem length_ext_dst_le (dst : Dst) : dst.ext.length ≤ 1 := by cases dst <;> simp [Dst.ext]

/-- Every field pair reads as a well-formed source operand (R90: the mode table has no blank reading). -/
theorem decodeSrc_wf (r : Reg) (as : BitVec 2) (x : Word) : (decodeSrc r as x).wf = true := by
  have h : ∀ as : BitVec 2, as = 0b00#2 ∨ as = 0b01#2 ∨ as = 0b10#2 ∨ as = 0b11#2 := by decide
  by_cases h3 : r = Reg.cg
  · subst h3; rcases h as with e | e | e | e <;> subst e <;> rfl
  · by_cases h2 : r = Reg.sr
    · subst h2; rcases h as with e | e | e | e <;> subst e <;> rfl
    · by_cases h0 : r = Reg.pc
      · subst h0; rcases h as with e | e | e | e <;> subst e <;> rfl
      · rcases h as with e | e | e | e <;> subst e <;> simp [decodeSrc, h3, h2, h0, Src.wf]

theorem decodeSrc_regField (r : Reg) (as : BitVec 2) (x : Word) : (decodeSrc r as x).regField = r := by
  have h : ∀ as : BitVec 2, as = 0b00#2 ∨ as = 0b01#2 ∨ as = 0b10#2 ∨ as = 0b11#2 := by decide
  by_cases h3 : r = Reg.cg
  · subst h3; rcases h as with e | e | e | e <;> subst e <;> rfl
  · by_cases h2 : r = Reg.sr
    · subst h2; rcases h as with e | e | e | e <;> subst e <;> rfl
    · by_cases h0 : r = Reg.pc
      · subst h0; rcases h as with e | e | e | e <;> subst e <;> rfl
      · rcases h as with e | e | e | e <;> subst e <;> simp [decodeSrc, h3, h2, h0, Src.regField]

theorem decodeSrc_asField (r : Reg) (as : BitVec 2) (x : Word) : (decodeSrc r as x).asField = as := by
  have h : ∀ as : BitVec 2, as = 0b00#2 ∨ as = 0b01#2 ∨ as = 0b10#2 ∨ as = 0b11#2 := by decide
  by_cases h3 : r = Reg.cg
  · subst h3; rcases h as with e | e | e | e <;> subst e <;> rfl
  · by_cases h2 : r = Reg.sr
    · subst h2; rcases h as with e | e | e | e <;> subst e <;> rfl
    · by_cases h0 : r = Reg.pc
      · subst h0; rcases h as with e | e | e | e <;> subst e <;> rfl
      · rcases h as with e | e | e | e <;> subst e <;> simp [decodeSrc, h3, h2, h0, Src.asField]

theorem decodeSrc_ext (r : Reg) (as : BitVec 2) (x : Word) :
    (decodeSrc r as x).ext = if srcExtCount r as = 0 then [] else [x] := by
  have h : ∀ as : BitVec 2, as = 0b00#2 ∨ as = 0b01#2 ∨ as = 0b10#2 ∨ as = 0b11#2 := by decide
  by_cases h3 : r = Reg.cg
  · subst h3; rcases h as with e | e | e | e <;> subst e <;> rfl
  · by_cases h2 : r = Reg.sr
    · subst h2; rcases h as with e | e | e | e <;> subst e <;> rfl
    · by_cases h0 : r = Reg.pc
      · subst h0; rcases h as with e | e | e | e <;> subst e <;> rfl
      · rcases h as with e | e | e | e <;> subst e <;> simp [decodeSrc, h3, h2, h0, Src.ext, srcExtCount]

theorem decodeDst_regField (r : Reg) (ad : BitVec 1) (x : Word) : (decodeDst r ad x).regField = r := by
  unfold decodeDst; split <;> rfl

theorem decodeDst_adField (r : Reg) (ad : BitVec 1) (x : Word) : (decodeDst r ad x).adField = ad := by
  have h : ∀ a : BitVec 1, a = 0#1 ∨ a = 1#1 := by decide
  rcases h ad with e | e <;> subst e <;> rfl

theorem decodeDst_ext (r : Reg) (ad : BitVec 1) (x : Word) :
    (decodeDst r ad x).ext = if dstExtCount ad = 0 then [] else [x] := by
  have h : ∀ a : BitVec 1, a = 0#1 ∨ a = 1#1 := by decide
  rcases h ad with e | e <;> subst e <;> rfl

theorem decodeDst_wf (r : Reg) (ad : BitVec 1) (x : Word) : (decodeDst r ad x).wf = true := by
  unfold decodeDst; split <;> rfl

/-! ## Words and their numeric ranges -/

theorem toNat_field (w : Word) (lo n : Nat) : (field w lo n).toNat = w.toNat / 2 ^ lo % 2 ^ n := by
  simp [field, BitVec.extractLsb'_toNat, Nat.shiftRight_eq_div_pow]

theorem toNat_of_field_eq {w : Word} {lo n : Nat} {k : BitVec n} (h : field w lo n = k) :
    w.toNat / 2 ^ lo % 2 ^ n = k.toNat := by
  rw [← h, toNat_field]

theorem toNat_of_field_ne {w : Word} {lo n : Nat} {k : BitVec n} (h : ¬ field w lo n = k) :
    w.toNat / 2 ^ lo % 2 ^ n ≠ k.toNat := fun e => h (BitVec.eq_of_toNat_eq (by rw [toNat_field]; exact e))

/-! ## A word is its fields (R81 to R83) -/

theorem two_operand_fields (w : Word) :
    field w 12 4 ++ field w 8 4 ++ field w 7 1 ++ field w 6 1 ++ field w 4 2 ++ field w 0 4 = w := by
  apply BitVec.eq_of_getLsbD_eq
  intro k hk
  simp only [BitVec.getLsbD_append, field, BitVec.getLsbD_extractLsb']
  interval_cases k <;> simp

theorem single_operand_fields (w : Word) : field w 7 9 ++ field w 6 1 ++ field w 4 2 ++ field w 0 4 = w := by
  apply BitVec.eq_of_getLsbD_eq
  intro k hk
  simp only [BitVec.getLsbD_append, field, BitVec.getLsbD_extractLsb']
  interval_cases k <;> simp

theorem jump_fields (w : Word) : field w 13 3 ++ field w 10 3 ++ field w 0 10 = w := by
  apply BitVec.eq_of_getLsbD_eq
  intro k hk
  simp only [BitVec.getLsbD_append, field, BitVec.getLsbD_extractLsb']
  interval_cases k <;> simp

/-! ## Extension words of an encoded instruction (R94 to R96) -/

theorem extCount_two (op : BitVec 4) (w : Width) {src : Src} (dst : Dst) (h : 4#4 ≤ op) (hwf : src.wf = true) :
    extCount (twoOperandWord op w src dst) = src.ext.length + dst.ext.length := by
  unfold extCount
  rw [two_op, two_sreg, two_as, two_ad, srcExtCount_fields hwf, dstExtCount_fields, if_pos h]

theorem extCount_one (op : BitVec 9) (w : Width) {src : Src} (h : op.extractLsb' 5 4 = 1#4) (h2 : op ≤ 0x26#9)
    (hwf : src.wf = true) : extCount (singleOperandWord op w src) = src.ext.length := by
  unfold extCount
  rw [one_nibble, one_op, one_reg, one_as, srcExtCount_fields hwf, if_neg (by rw [h]; decide), if_pos ⟨h, h2⟩]

theorem extCount_jump (cond : BitVec 3) (off : BitVec 10) : extCount (jumpWord cond off) = 0 := by
  have h : ∀ b : BitVec 1, b = 0#1 ∨ b = 1#1 := by decide
  unfold extCount
  rw [jump_nibble]
  rcases h (cond.extractLsb' 2 1) with h | h <;> rw [h, if_neg (by decide), if_neg (fun e => absurd e.1 (by decide))]

theorem src_of_two (op : BitVec 4) (w : Width) {src : Src} (dst : Dst) (hwf : src.wf = true) :
    twoOperandSrc (twoOperandWord op w src dst) ((src.ext ++ dst.ext).headD 0#16) = src := by
  unfold twoOperandSrc
  rw [two_sreg, two_as]
  exact decodeSrc_fields hwf _ _

theorem dst_of_two (op : BitVec 4) (w : Width) {src : Src} (dst : Dst) (hwf : src.wf = true) :
    twoOperandDst (twoOperandWord op w src dst) ((src.ext ++ dst.ext).headD 0#16)
      (((src.ext ++ dst.ext).drop 1).headD 0#16) = dst := by
  unfold twoOperandDst
  rw [two_sreg, two_as, two_ad, two_dreg, srcExtCount_fields hwf]
  have h := length_ext_src_le src
  have hd := decodeDst_fields dst [] 0#16
  rw [List.append_nil] at hd
  rcases hs : src.ext with _ | ⟨x, _ | ⟨y, l⟩⟩
  · simpa using hd
  · simpa using hd
  · rw [hs] at h; simp at h

/-- A decoded two-operand word's fields are that word's (R81). -/
theorem word_of_two (w x1 x2 : Word) :
    twoOperandWord (field w 12 4) (widthOfBit (field w 6 1)) (twoOperandSrc w x1) (twoOperandDst w x1 x2) = w := by
  unfold twoOperandWord twoOperandSrc twoOperandDst
  rw [decodeSrc_regField, decodeSrc_asField, decodeDst_regField, decodeDst_adField, bw_widthOfBit]
  exact two_operand_fields w

/-- A decoded single-operand word's fields are that word's (R82). -/
theorem word_of_one (w x1 : Word) :
    singleOperandWord (field w 7 9) (widthOfBit (field w 6 1)) (decodeSrc (field w 0 4) (field w 4 2) x1) = w := by
  unfold singleOperandWord
  rw [decodeSrc_regField, decodeSrc_asField, bw_widthOfBit]
  exact single_operand_fields w

end Sys2Proof
end

