-- ==== Sys2Proof/Laws/State.lean ====
section
/-! SUPPORT. One lemma per field per update, so that no later proof unfolds a record update. -/

namespace Sys2Proof.Machine

/-! ## The four named registers are distinct -/

@[simp] theorem pc_ne_sp : (Reg.pc = Reg.sp) = False := by decide
@[simp] theorem pc_ne_sr : (Reg.pc = Reg.sr) = False := by decide
@[simp] theorem pc_ne_cg : (Reg.pc = Reg.cg) = False := by decide
@[simp] theorem sp_ne_pc : (Reg.sp = Reg.pc) = False := by decide
@[simp] theorem sp_ne_sr : (Reg.sp = Reg.sr) = False := by decide
@[simp] theorem sp_ne_cg : (Reg.sp = Reg.cg) = False := by decide
@[simp] theorem sr_ne_pc : (Reg.sr = Reg.pc) = False := by decide
@[simp] theorem sr_ne_sp : (Reg.sr = Reg.sp) = False := by decide
@[simp] theorem sr_ne_cg : (Reg.sr = Reg.cg) = False := by decide
@[simp] theorem cg_ne_pc : (Reg.cg = Reg.pc) = False := by decide
@[simp] theorem cg_ne_sp : (Reg.cg = Reg.sp) = False := by decide
@[simp] theorem cg_ne_sr : (Reg.cg = Reg.sr) = False := by decide

/-! ## setReg -/

@[simp] theorem reg_setReg_same (s : State) (r : Reg) (v : Word) : (s.setReg r v).reg r = v := by
  simp [State.reg, State.setReg]

theorem reg_setReg_ne (s : State) {r q : Reg} (v : Word) (h : q ≠ r) : (s.setReg r v).reg q = s.reg q := by
  have : r.toNat ≠ q.toNat := fun e => h (BitVec.eq_of_toNat_eq e.symm)
  simp [State.reg, State.setReg, this]

theorem reg_setReg (s : State) (r q : Reg) (v : Word) :
    (s.setReg r v).reg q = if q = r then v else s.reg q := by
  split
  · rename_i h; subst h; simp
  · rename_i h; exact reg_setReg_ne s v h

@[simp] theorem mem_setReg (s : State) (r : Reg) (v : Word) : (s.setReg r v).mem = s.mem := rfl
@[simp] theorem run_setReg (s : State) (r : Reg) (v : Word) : (s.setReg r v).run = s.run := rfl
@[simp] theorem draws_setReg (s : State) (r : Reg) (v : Word) : (s.setReg r v).draws = s.draws := rfl

/-- Two states with equal registers, memory, run state and draw count are equal. -/
theorem State.ext_reg {s t : State} (hr : ∀ r, s.reg r = t.reg r) (hm : s.mem = t.mem) (hx : s.run = t.run)
    (hd : s.draws = t.draws) : s = t := by
  cases s; cases t
  simp only [State.mk.injEq]
  refine ⟨?_, hm, hx, hd⟩
  apply Vector.ext
  intro k hk
  have := hr (BitVec.ofNat 4 k)
  simpa [State.reg, BitVec.toNat_ofNat, Nat.mod_eq_of_lt hk] using this

theorem setReg_eq_self (s : State) (r : Reg) (v : Word) (h : v = s.reg r) : s.setReg r v = s := by
  apply State.ext_reg <;> simp +contextual [reg_setReg, h]

/-! ## pc and sp -/

@[simp] theorem reg_pc (s : State) : s.reg Reg.pc = s.pc := rfl
@[simp] theorem reg_sp (s : State) : s.reg Reg.sp = s.sp := rfl
@[simp] theorem reg_sr (s : State) : s.reg Reg.sr = s.sr := rfl

theorem reg_setPc (s : State) (v : Word) (q : Reg) : (s.setPc v).reg q = if q = Reg.pc then v else s.reg q :=
  reg_setReg s _ _ _
@[simp] theorem pc_setPc (s : State) (v : Word) : (s.setPc v).pc = v := reg_setReg_same s _ _
@[simp] theorem mem_setPc (s : State) (v : Word) : (s.setPc v).mem = s.mem := rfl
@[simp] theorem run_setPc (s : State) (v : Word) : (s.setPc v).run = s.run := rfl
@[simp] theorem draws_setPc (s : State) (v : Word) : (s.setPc v).draws = s.draws := rfl

theorem reg_setSp (s : State) (v : Word) (q : Reg) : (s.setSp v).reg q = if q = Reg.sp then v else s.reg q :=
  reg_setReg s _ _ _
@[simp] theorem sp_setSp (s : State) (v : Word) : (s.setSp v).sp = v := reg_setReg_same s _ _
@[simp] theorem mem_setSp (s : State) (v : Word) : (s.setSp v).mem = s.mem := rfl
@[simp] theorem run_setSp (s : State) (v : Word) : (s.setSp v).run = s.run := rfl
@[simp] theorem draws_setSp (s : State) (v : Word) : (s.setSp v).draws = s.draws := rfl

theorem reg_bumpPc (s : State) (q : Reg) : s.bumpPc.reg q = if q = Reg.pc then s.pc + 2#16 else s.reg q :=
  reg_setPc s _ _
@[simp] theorem pc_bumpPc (s : State) : s.bumpPc.pc = s.pc + 2#16 := pc_setPc s _
@[simp] theorem mem_bumpPc (s : State) : s.bumpPc.mem = s.mem := rfl
@[simp] theorem run_bumpPc (s : State) : s.bumpPc.run = s.run := rfl
@[simp] theorem draws_bumpPc (s : State) : s.bumpPc.draws = s.draws := rfl

@[simp] theorem advance_true (s : State) : s.advance true = s := rfl
@[simp] theorem advance_false (s : State) : s.advance false = s.bumpPc := rfl
@[simp] theorem mem_advance (s : State) (b : Bool) : (s.advance b).mem = s.mem := by cases b <;> rfl
@[simp] theorem run_advance (s : State) (b : Bool) : (s.advance b).run = s.run := by cases b <;> rfl
@[simp] theorem draws_advance (s : State) (b : Bool) : (s.advance b).draws = s.draws := by cases b <;> rfl
theorem reg_advance (s : State) (b : Bool) (q : Reg) :
    (s.advance b).reg q = if q = Reg.pc ∧ b = false then s.pc + 2#16 else s.reg q := by
  cases b <;> simp [reg_bumpPc]

@[simp] theorem sr_advance (s : State) (b : Bool) : (s.advance b).sr = s.sr := by
  rw [← reg_sr, reg_advance]; simp

/-! ## writeSr and writeReg -/

/-- A whole write of sr: the drawn bits over the written ones (R30). -/
theorem reg_writeSr (s : State) (v : Word) (q : Reg) :
    (s.writeSr v).reg q = if q = Reg.sr then Config.drawReserved s.draws ++ v.extractLsb' 0 9 else s.reg q :=
  reg_setReg s _ _ _
@[simp] theorem mem_writeSr (s : State) (v : Word) : (s.writeSr v).mem = s.mem := rfl
@[simp] theorem run_writeSr (s : State) (v : Word) : (s.writeSr v).run = s.run := rfl
@[simp] theorem draws_writeSr (s : State) (v : Word) : (s.writeSr v).draws = s.draws + 1 := rfl

/-- Bits 8:0 of sr after a whole write are those written (R30). -/
theorem sr_writeSr_low (s : State) (v : Word) : (s.writeSr v).sr.extractLsb' 0 9 = v.extractLsb' 0 9 := by
  rw [← reg_sr, reg_writeSr, if_pos rfl]
  apply BitVec.eq_of_getLsbD_eq
  intro k hk
  simp only [BitVec.getLsbD_extractLsb', BitVec.getLsbD_append, Nat.zero_add]
  simp [hk]

/-- Bits 15:9 of sr after a whole write are the drawn ones (R30). -/
theorem srReserved_writeSr (s : State) (v : Word) : (s.writeSr v).srReserved = Config.drawReserved s.draws := by
  unfold State.srReserved
  rw [← reg_sr, reg_writeSr, if_pos rfl]
  apply BitVec.eq_of_getLsbD_eq
  intro k hk
  simp only [BitVec.getLsbD_extractLsb', BitVec.getLsbD_append]
  simp [hk]

theorem writeReg_sr (s : State) (v : Word) : s.writeReg Reg.sr v = s.writeSr v := if_pos rfl
theorem writeReg_ne (s : State) {r : Reg} (v : Word) (h : r ≠ Reg.sr) : s.writeReg r v = s.setReg r v := if_neg h
theorem reg_writeReg_ne (s : State) {r q : Reg} (v : Word) (h : q ≠ r) : (s.writeReg r v).reg q = s.reg q := by
  unfold State.writeReg
  split
  · rename_i hr; subst hr; simp [reg_writeSr, h]
  · exact reg_setReg_ne s v h
theorem reg_writeReg_same (s : State) {r : Reg} (v : Word) (h : r ≠ Reg.sr) : (s.writeReg r v).reg r = v := by
  simp [writeReg_ne s v h]
@[simp] theorem mem_writeReg (s : State) (r : Reg) (v : Word) : (s.writeReg r v).mem = s.mem := by
  unfold State.writeReg; split <;> rfl
@[simp] theorem run_writeReg (s : State) (r : Reg) (v : Word) : (s.writeReg r v).run = s.run := by
  unfold State.writeReg; split <;> rfl

theorem draws_writeReg (s : State) (r : Reg) (v : Word) :
    (s.writeReg r v).draws = if r = Reg.sr then s.draws + 1 else s.draws := by
  unfold State.writeReg; split <;> rfl

/-! ## Memory writes -/

@[simp] theorem reg_writeByte (s : State) (a : Word) (v : Byte) (q : Reg) : (s.writeByte a v).reg q = s.reg q := rfl
@[simp] theorem run_writeByte (s : State) (a : Word) (v : Byte) : (s.writeByte a v).run = s.run := rfl
@[simp] theorem draws_writeByte (s : State) (a : Word) (v : Byte) : (s.writeByte a v).draws = s.draws := rfl
@[simp] theorem reg_setWordAt (s : State) (a v : Word) (q : Reg) : (s.setWordAt a v).reg q = s.reg q := rfl
@[simp] theorem run_setWordAt (s : State) (a v : Word) : (s.setWordAt a v).run = s.run := rfl
@[simp] theorem draws_setWordAt (s : State) (a v : Word) : (s.setWordAt a v).draws = s.draws := rfl

/-! ## Faults -/

@[simp] theorem reg_takeFault (s : State) (x : FaultRecord) (q : Reg) : (s.takeFault x).reg q = s.reg q := rfl
@[simp] theorem mem_takeFault (s : State) (x : FaultRecord) : (s.takeFault x).mem = s.mem := rfl
@[simp] theorem run_takeFault (s : State) (x : FaultRecord) : (s.takeFault x).run = .dead x := rfl
@[simp] theorem draws_takeFault (s : State) (x : FaultRecord) : (s.takeFault x).draws = s.draws := rfl

/-! ## Flags -/

theorem getLsbD_setBit (x : Word) (k : Nat) (b : Bool) (j : Nat) (hk : k < 16) :
    (setBit x k b).getLsbD j = if j = k then b else x.getLsbD j := by
  by_cases hj : j < 16
  · cases b <;> by_cases e : j = k <;> simp [setBit, e, hj, hk]
    · intro _; omega
    · intro h1 h2; omega
  · have : j ≠ k := by omega
    simp [this, BitVec.getLsbD_of_ge _ _ (Nat.le_of_not_lt hj)]

theorem reg_setSrBit_ne (s : State) (k : Nat) (b : Bool) {q : Reg} (h : q ≠ Reg.sr) :
    (s.setSrBit k b).reg q = s.reg q := reg_setReg_ne s _ h
@[simp] theorem sr_setSrBit (s : State) (k : Nat) (b : Bool) : (s.setSrBit k b).sr = setBit s.sr k b :=
  reg_setReg_same s _ _
@[simp] theorem mem_setSrBit (s : State) (k : Nat) (b : Bool) : (s.setSrBit k b).mem = s.mem := rfl
@[simp] theorem run_setSrBit (s : State) (k : Nat) (b : Bool) : (s.setSrBit k b).run = s.run := rfl
@[simp] theorem draws_setSrBit (s : State) (k : Nat) (b : Bool) : (s.setSrBit k b).draws = s.draws := rfl

/-- The UpdateFlags phase writes bits 0, 1, 2 and 8 of sr and no other (R158, R28). -/
theorem getLsbD_sr_updateFlags (s : State) (f : FlagValues) (j : Nat) :
    (s.updateFlags f).sr.getLsbD j =
      if j = 8 then f.v else if j = 2 then f.n else if j = 1 then f.z else if j = 0 then f.c else s.sr.getLsbD j := by
  simp [State.updateFlags, getLsbD_setBit, bitC, bitZ, bitN, bitV]
theorem reg_updateFlags_ne (s : State) (f : FlagValues) {q : Reg} (h : q ≠ Reg.sr) :
    (s.updateFlags f).reg q = s.reg q := by
  simp [State.updateFlags, reg_setSrBit_ne _ _ _ h]
@[simp] theorem mem_updateFlags (s : State) (f : FlagValues) : (s.updateFlags f).mem = s.mem := rfl
@[simp] theorem run_updateFlags (s : State) (f : FlagValues) : (s.updateFlags f).run = s.run := rfl
@[simp] theorem draws_updateFlags (s : State) (f : FlagValues) : (s.updateFlags f).draws = s.draws := rfl
@[simp] theorem updateFlagsOpt_some (s : State) (f : FlagValues) : s.updateFlagsOpt (some f) = s.updateFlags f := rfl
@[simp] theorem updateFlagsOpt_none (s : State) : s.updateFlagsOpt none = s := rfl
@[simp] theorem mem_updateFlagsOpt (s : State) (f : Option FlagValues) : (s.updateFlagsOpt f).mem = s.mem := by
  cases f <;> rfl
@[simp] theorem run_updateFlagsOpt (s : State) (f : Option FlagValues) : (s.updateFlagsOpt f).run = s.run := by
  cases f <;> rfl
theorem reg_updateFlagsOpt_ne (s : State) (f : Option FlagValues) {q : Reg} (h : q ≠ Reg.sr) :
    (s.updateFlagsOpt f).reg q = s.reg q := by
  cases f
  · rfl
  · exact reg_updateFlags_ne s _ h

end Sys2Proof.Machine
end

