-- ==== Sys2Proof/Laws/Memory.lean ====
section
/-! SUPPORT. The laws of memory: read after write, every other byte left alone, and the canonical form kept. -/

namespace Sys2Proof.Machine

/-! ## Read after write -/

theorem Memory.get_erase (m : Memory) (a b : Nat) :
    Memory.get (Memory.erase m a) b = if b = a then Config.unlistedByte else Memory.get m b := by
  induction m with
  | nil => simp [Memory.erase, Memory.get]
  | cons c rest ih =>
    obtain ⟨x, v⟩ := c
    unfold Memory.erase at ih ⊢
    rw [List.filter_cons]
    by_cases hx : x = a
    · simp only [hx, bne_self_eq_false, Bool.false_eq_true, if_false, ih, Memory.get]
      by_cases hb : b = a
      · simp [hb]
      · simp [hb, Ne.symm hb]
    · simp only [bne_iff_ne, ne_eq, hx, not_false_eq_true, if_true, Memory.get, ih]
      by_cases hb : x = b
      · subst hb; simp [hx]
      · simp [hb]

theorem Memory.get_insert (l : Memory) (a b : Nat) (v : Byte) (hne : ∀ c ∈ l, c.1 ≠ a) :
    Memory.get (Memory.insert l a v) b = if b = a then v else Memory.get l b := by
  induction l with
  | nil => simp [Memory.insert, Memory.get, eq_comm]
  | cons c rest ih =>
    obtain ⟨x, w⟩ := c
    have hx : x ≠ a := hne (x, w) (by simp)
    have ih := ih (fun c hc => hne c (by simp [hc]))
    unfold Memory.insert
    split
    · simp [Memory.get, eq_comm]
    · simp only [Memory.get, ih]
      split <;> rename_i e
      · have : b ≠ a := fun h' => hx (e.trans h')
        simp [this]
      · rfl

theorem Memory.erase_ne (m : Memory) (a : Nat) : ∀ c ∈ Memory.erase m a, c.1 ≠ a := by
  intro c hc
  simp [Memory.erase] at hc
  exact hc.2

/-- Read after write, of any memory: the byte written reads as written, every other byte as before. -/
theorem Memory.get_set (m : Memory) (a b : Nat) (v : Byte) :
    Memory.get (Memory.set m a v) b = if b = a then v else Memory.get m b := by
  unfold Memory.set
  split
  · rename_i hv; rw [Memory.get_erase, hv]
  · rw [Memory.get_insert _ _ _ _ (Memory.erase_ne m a), Memory.get_erase]
    split <;> rfl

/-! ## The canonical form -/

theorem Memory.wfFrom_mono {lo lo' : Nat} {m : Memory} (h : lo' ≤ lo) (hm : Memory.wfFrom lo m = true) :
    Memory.wfFrom lo' m = true := by
  cases m with
  | nil => rfl
  | cons c rest =>
    obtain ⟨x, v⟩ := c
    simp [Memory.wfFrom] at hm ⊢
    exact ⟨⟨⟨by omega, hm.1.1.2⟩, hm.1.2⟩, hm.2⟩

theorem Memory.wfFrom_erase {lo : Nat} {m : Memory} (a : Nat) (hm : Memory.wfFrom lo m = true) :
    Memory.wfFrom lo (Memory.erase m a) = true := by
  induction m generalizing lo with
  | nil => rfl
  | cons c rest ih =>
    obtain ⟨x, v⟩ := c
    simp [Memory.wfFrom] at hm
    have h := ih hm.2
    unfold Memory.erase at h ⊢
    rw [List.filter_cons]
    split
    · simp [Memory.wfFrom, hm, h]
    · exact Memory.wfFrom_mono (by omega) h

theorem Memory.wfFrom_insert {lo : Nat} {m : Memory} {a : Nat} {v : Byte} (hlo : lo ≤ a) (ha : a < Config.memorySize)
    (hv : v ≠ Config.unlistedByte) (hne : ∀ c ∈ m, c.1 ≠ a) (hm : Memory.wfFrom lo m = true) :
    Memory.wfFrom lo (Memory.insert m a v) = true := by
  induction m generalizing lo with
  | nil => simp [Memory.insert, Memory.wfFrom, hlo, ha, hv]
  | cons c rest ih =>
    obtain ⟨x, w⟩ := c
    have hx : x ≠ a := hne (x, w) (by simp)
    simp [Memory.wfFrom] at hm
    unfold Memory.insert
    split
    · rename_i hax
      simp [Memory.wfFrom, hlo, ha, hv, hm]
      omega
    · simp [Memory.wfFrom, hm]
      exact ih (by omega) (fun c hc => hne c (by simp [hc])) hm.2

/-- A write below the memory size keeps the canonical form. -/
theorem Memory.wf_set {m : Memory} {a : Nat} (v : Byte) (ha : a < Config.memorySize) (hm : Memory.wf m = true) :
    Memory.wf (Memory.set m a v) = true := by
  unfold Memory.set
  split
  · exact Memory.wfFrom_erase a hm
  · rename_i hv
    exact Memory.wfFrom_insert (Nat.zero_le _) ha hv (Memory.erase_ne m a) (Memory.wfFrom_erase a hm)

theorem Memory.get_of_wfFrom_lt {lo : Nat} {m : Memory} {a : Nat} (h : a < lo) (hm : Memory.wfFrom lo m = true) :
    Memory.get m a = Config.unlistedByte := by
  induction m generalizing lo with
  | nil => rfl
  | cons c rest ih =>
    obtain ⟨x, v⟩ := c
    simp [Memory.wfFrom] at hm
    have : x ≠ a := by omega
    simp [Memory.get, this]
    exact ih (lo := x + 1) (by omega) hm.2

/-- Canonical memories that read the same everywhere are the same list. -/
theorem Memory.ext_of_wfFrom {lo : Nat} {m n : Memory} (hm : Memory.wfFrom lo m = true) (hn : Memory.wfFrom lo n = true)
    (h : ∀ a, Memory.get m a = Memory.get n a) : m = n := by
  induction m generalizing lo n with
  | nil =>
    cases n with
    | nil => rfl
    | cons d rest =>
      obtain ⟨y, w⟩ := d
      simp [Memory.wfFrom] at hn
      have := h y
      simp [Memory.get] at this
      exact absurd this.symm hn.1.2
  | cons c rest ih =>
    obtain ⟨x, v⟩ := c
    simp [Memory.wfFrom] at hm
    cases n with
    | nil =>
      have := h x
      simp [Memory.get] at this
      exact absurd this hm.1.2
    | cons d rest' =>
      obtain ⟨y, w⟩ := d
      simp [Memory.wfFrom] at hn
      have hxy : x = y := by
        rcases Nat.lt_trichotomy x y with hlt | he | hgt
        · have h1 := h x
          have h2 := Memory.get_of_wfFrom_lt (a := x) (lo := y + 1) (by omega) hn.2
          have h3 : y ≠ x := by omega
          simp [Memory.get, h3, h2] at h1
          exact absurd h1 hm.1.2
        · exact he
        · have h1 := h y
          have h2 := Memory.get_of_wfFrom_lt (a := y) (lo := x + 1) (by omega) hm.2
          have h3 : x ≠ y := by omega
          simp [Memory.get, h3, h2] at h1
          exact absurd h1.symm hn.1.2
      subst hxy
      have hv : v = w := by have := h x; simpa [Memory.get] using this
      subst hv
      congr 1
      refine ih hm.2 hn.2 fun a => ?_
      by_cases e : x = a
      · subst e
        rw [Memory.get_of_wfFrom_lt (Nat.lt_succ_self _) hm.2, Memory.get_of_wfFrom_lt (Nat.lt_succ_self _) hn.2]
      · have := h a
        simpa [Memory.get, e] using this

/-! ## Accessors -/

theorem readByte_writeByte (s : State) (a b : Word) (v : Byte) :
    (s.writeByte a v).readByte b = if b = a then v else s.readByte b := by
  simp [State.readByte, State.writeByte, Memory.get_set, BitVec.toNat_inj]

@[simp] theorem readByte_setReg (s : State) (r : Reg) (v a : Word) : (s.setReg r v).readByte a = s.readByte a := rfl
@[simp] theorem readByte_setPc (s : State) (v a : Word) : (s.setPc v).readByte a = s.readByte a := rfl
@[simp] theorem readByte_setSp (s : State) (v a : Word) : (s.setSp v).readByte a = s.readByte a := rfl
@[simp] theorem readByte_bumpPc (s : State) (a : Word) : s.bumpPc.readByte a = s.readByte a := rfl
theorem readByte_congr {s t : State} (h : s.mem = t.mem) (a : Word) : s.readByte a = t.readByte a := by
  simp [State.readByte, h]
theorem wordAt_congr {s t : State} (h : s.mem = t.mem) (a : Word) : s.wordAt a = t.wordAt a := by
  simp [State.wordAt, readByte_congr h]

theorem readByte_setWordAt (s : State) (a v b : Word) :
    (s.setWordAt a v).readByte b =
      if b = a + 1#16 then v.extractLsb' 8 8 else if b = a then v.extractLsb' 0 8 else s.readByte b := by
  simp only [State.setWordAt, readByte_writeByte]

theorem add_one_ne_self (a : Word) : a ≠ a + 1#16 := by
  intro h
  have := congrArg BitVec.toNat h
  simp [BitVec.toNat_add] at this
  omega

theorem wordOfBytes_split (v : Word) : wordOfBytes (v.extractLsb' 0 8) (v.extractLsb' 8 8) = v := by
  apply BitVec.eq_of_getLsbD_eq
  intro k hk
  simp only [wordOfBytes, BitVec.getLsbD_append, BitVec.getLsbD_extractLsb']
  by_cases h : k < 8 <;> simp [h]
  have : 8 + (k - 8) = k := by omega
  rw [this]; simp; omega

/-- A word stored reads back, byte order and all (R58). -/
@[simp] theorem wordAt_setWordAt (s : State) (a v : Word) : (s.setWordAt a v).wordAt a = v := by
  simp [State.wordAt, readByte_setWordAt, add_one_ne_self a, wordOfBytes_split]

theorem wf_writeByte {s : State} (a : Word) (v : Byte) (h : Memory.wf s.mem = true) :
    Memory.wf (s.writeByte a v).mem = true :=
  Memory.wf_set v a.isLt h

theorem wf_setWordAt {s : State} (a v : Word) (h : Memory.wf s.mem = true) :
    Memory.wf (s.setWordAt a v).mem = true :=
  wf_writeByte _ _ (wf_writeByte _ _ h)

theorem wf_writeWord {s t : State} {a v : Word} (h : Memory.wf s.mem = true) (ht : s.writeWord a v = .ok t) :
    Memory.wf t.mem = true := by
  unfold State.writeWord at ht
  split at ht
  · cases ht; exact wf_setWordAt _ _ h
  · cases ht

theorem wf_memWrite {w : Width} {s t : State} {a v : Word} (h : Memory.wf s.mem = true) (ht : s.memWrite w a v = .ok t) :
    Memory.wf t.mem = true := by
  cases w
  · exact wf_writeWord h ht
  · cases ht; exact wf_writeByte _ _ h

theorem wf_storeBytes {m : Memory} {a : Nat} {bs : List Byte} (ha : a + bs.length ≤ Config.memorySize)
    (hm : Memory.wf m = true) : Memory.wf (Memory.storeBytes m a bs) = true := by
  induction bs generalizing m a with
  | nil => exact hm
  | cons b rest ih =>
    simp only [List.length_cons] at ha
    exact ih (by omega) (Memory.wf_set b (by omega) hm)

/-- Bytes stored from `a` upward: each reads as stored, every other byte as before. -/
theorem get_storeBytes (m : Memory) (a : Nat) (bs : List Byte) (b : Nat) :
    Memory.get (Memory.storeBytes m a bs) b =
      if a ≤ b ∧ b < a + bs.length then bs.getD (b - a) 0#8 else Memory.get m b := by
  induction bs generalizing m a with
  | nil =>
    have : ¬(a ≤ b ∧ b < a + ([] : List Byte).length) := by simp
    rw [if_neg this, Memory.storeBytes]
  | cons c rest ih =>
    rw [Memory.storeBytes, ih, Memory.get_set, List.length_cons]
    by_cases h : b = a
    · subst h; simp
    · by_cases h2 : a ≤ b ∧ b < a + (rest.length + 1)
      · have h3 : a + 1 ≤ b ∧ b < a + 1 + rest.length := by omega
        have h4 : b - a = (b - (a + 1)) + 1 := by omega
        rw [if_pos h3, if_pos h2, h4, List.getD_cons_succ]
      · have h3 : ¬(a + 1 ≤ b ∧ b < a + 1 + rest.length) := by omega
        rw [if_neg h3, if_neg h, if_neg h2]

end Sys2Proof.Machine
end

