-- ==== Sys2Proof/Laws/Operands.lean ====
section
/-! SUPPORT. What the resolver answers, said once: an AlignmentFault at the first odd operand, or the closed forms of
Safety.lean over a state that differs from the old one in pc and the autoincremented register only. -/

namespace Sys2Proof.Machine

/-- The state a resolved source leaves: pc past its extension word, an autoincremented register higher (R122, R126). -/
def srcState (w : Width) (src : Src) (s : State) : State :=
  match src with
  | .reg _ | .indirect _ | .const _ => s
  | .indexed _ _ | .imm _ => s.bumpPc
  | .autoinc r => s.setReg r (s.reg r + incBy w)

@[simp] theorem mem_srcState (w : Width) (src : Src) (s : State) : (srcState w src s).mem = s.mem := by
  cases src <;> rfl
@[simp] theorem run_srcState (w : Width) (src : Src) (s : State) : (srcState w src s).run = s.run := by
  cases src <;> rfl
@[simp] theorem draws_srcState (w : Width) (src : Src) (s : State) : (srcState w src s).draws = s.draws := by
  cases src <;> rfl

/-- The registers after the source are those `regAfterSrc` says. -/
theorem reg_srcState (w : Width) {src : Src} (hwf : src.wf = true) (s : State) (q : Reg) :
    (srcState w src s).reg q = s.regAfterSrc w src q := by
  cases src with
  | autoinc r =>
    have hr : r ≠ Reg.pc := by simp [Src.wf] at hwf; exact hwf.1.1
    simp only [srcState, State.regAfterSrc, reg_setReg, Src.autoinc.injEq]
    by_cases hq : q = Reg.pc
    · subst hq; simp [Ne.symm hr, Src.ext, extBytes]
    · by_cases hrq : q = r
      · subst hrq; simp [hq]
      · simp [hq, hrq, Ne.symm hrq]
  | reg r =>
    by_cases hq : q = Reg.pc <;> simp [srcState, State.regAfterSrc, Src.ext, extBytes, hq]
  | indirect r =>
    by_cases hq : q = Reg.pc <;> simp [srcState, State.regAfterSrc, Src.ext, extBytes, hq]
  | const c =>
    by_cases hq : q = Reg.pc <;> simp [srcState, State.regAfterSrc, Src.ext, extBytes, hq]
  | indexed r x =>
    by_cases hq : q = Reg.pc <;> simp [srcState, State.regAfterSrc, Src.ext, extBytes, hq, reg_bumpPc]
  | imm n =>
    by_cases hq : q = Reg.pc <;> simp [srcState, State.regAfterSrc, Src.ext, extBytes, hq, reg_bumpPc]

theorem valueAt_congr {s t : State} (h : s.mem = t.mem) (w : Width) (a : Word) : s.valueAt w a = t.valueAt w a := by
  cases w <;> simp [State.valueAt, wordAt_congr h, readByte_congr h]

/-- A read of width w: the value there, or the odd address (R55, R59). -/
theorem memRead_eq (w : Width) (s : State) (a : Word) :
    s.memRead w a = match oddAt w (some a) with
      | some b => .error b
      | none => .ok (s.valueAt w a) := by
  cases w
  · simp only [State.memRead, State.readWord, oddAt, State.valueAt]
    split <;> simp_all
  · rfl

/-- The Indexed family from any state (R124, R131). -/
theorem resolveIndexed_eq (w : Width) (r : Reg) (x : Word) (s : State) :
    resolveIndexed w r x s =
      match oddAt w (some ((if r = Reg.sr then 0#16 else if r = Reg.pc then s.pc + 2#16 else s.reg r) + x)) with
      | some b => .error b
      | none => .ok
          { state := s.bumpPc
            val := s.valueAt w ((if r = Reg.sr then 0#16 else if r = Reg.pc then s.pc + 2#16 else s.reg r) + x)
            target := .mem ((if r = Reg.sr then 0#16 else if r = Reg.pc then s.pc + 2#16 else s.reg r) + x)
            cg := .notFired } := by
  have hea : s.bumpPc.indexedEA r x =
      (if r = Reg.sr then 0#16 else if r = Reg.pc then s.pc + 2#16 else s.reg r) + x := by
    simp [State.indexedEA, reg_bumpPc]
  simp only [resolveIndexed, hea, memRead_eq]
  cases oddAt w _ with
  | some b => rfl
  | none => simp [valueAt_congr (mem_bumpPc s)]

/-- THE SOURCE RESOLVER, said once (R120, R123 to R128, R135). -/
theorem resolveSrc_eq (w : Width) (src : Src) (s : State) :
    resolveSrc w src s =
      match oddAt w (srcEA src s) with
      | some a => .error a
      | none => .ok { state := srcState w src s, val := srcValue w src s, target := srcTarget src s, cg := srcCg w src } := by
  cases src with
  | reg r => cases w <;> rfl
  | imm n => cases w <;> rfl
  | const c => cases w <;> rfl
  | indexed r x =>
    simp only [resolveSrc, resolveIndexed_eq, srcEA, srcValue, srcState, srcTarget, srcCg]
  | indirect r =>
    simp only [resolveSrc, resolveIndirect, memRead_eq, srcEA, srcValue, srcState, srcTarget, srcCg]
    cases oddAt w _ <;> rfl
  | autoinc r =>
    simp only [resolveSrc, resolveAutoinc, memRead_eq, srcEA, srcValue, srcState, srcTarget, srcCg]
    cases oddAt w _ <;> rfl

/-- The state both resolved operands leave. -/
def twoState (w : Width) (src : Src) (dst : Dst) (s : State) : State :=
  match dst with
  | .reg _ => srcState w src s
  | .indexed _ _ => (srcState w src s).bumpPc

@[simp] theorem mem_twoState (w : Width) (src : Src) (dst : Dst) (s : State) : (twoState w src dst s).mem = s.mem := by
  cases dst <;> simp [twoState]
@[simp] theorem run_twoState (w : Width) (src : Src) (dst : Dst) (s : State) : (twoState w src dst s).run = s.run := by
  cases dst <;> simp [twoState]
@[simp] theorem draws_twoState (w : Width) (src : Src) (dst : Dst) (s : State) : (twoState w src dst s).draws = s.draws := by
  cases dst <;> simp [twoState]

theorem extBytes_append (xs ys : List Word) : extBytes (xs ++ ys) = extBytes xs + extBytes ys := by
  simp [extBytes, Nat.mul_add, BitVec.ofNat_add]

/-- pc after both operands: past every extension word (R121, R122). -/
theorem pc_twoState (w : Width) {src : Src} (hwf : src.wf = true) (dst : Dst) (s : State) :
    (twoState w src dst s).pc = s.pc + extBytes (src.ext ++ dst.ext) := by
  have h : (srcState w src s).pc = s.pc + extBytes src.ext := by
    rw [← reg_pc, reg_srcState w hwf]; simp [State.regAfterSrc]
  cases dst with
  | reg r => simp [twoState, h, Dst.ext]
  | indexed r x =>
    simp only [twoState, pc_bumpPc, h, extBytes_append, Dst.ext]
    simp [extBytes, BitVec.add_assoc]

/-- The registers other than pc after both operands: the autoincremented one is higher (R126). -/
theorem reg_twoState_ne (w : Width) {src : Src} (hwf : src.wf = true) (dst : Dst) (s : State) {q : Reg} (hq : q ≠ Reg.pc) :
    (twoState w src dst s).reg q = if src = .autoinc q then s.reg q + incBy w else s.reg q := by
  have h := reg_srcState w hwf s q
  simp [State.regAfterSrc, hq] at h
  cases dst <;> simp [twoState, reg_bumpPc, hq, h]

/-- BOTH OPERANDS, said once (R121, R130, R131, R134, R135). -/
theorem resolveTwo_eq (w : Width) {src : Src} (hwf : src.wf = true) (dst : Dst) (s : State) :
    resolveTwo w src dst s =
      match (oddAt w (srcEA src s)).or (oddAt w (dstEA w src dst s)) with
      | some a => .error a
      | none => .ok
          { state := twoState w src dst s, srcVal := srcValue w src s, dstVal := dstValue w src dst s,
            target := twoTarget w src dst s, cg := srcCg w src } := by
  simp only [resolveTwo, resolveSrc_eq]
  cases hs : oddAt w (srcEA src s) with
  | some a => rfl
  | none =>
    simp only [Option.none_or]
    cases dst with
    | reg r =>
      have : oddAt w (dstEA w src (.reg r) s) = none := by cases w <;> rfl
      rw [this]
      simp only [resolveDst, resolveReg, twoState, dstValue, twoTarget, reg_srcState w hwf]
    | indexed r x =>
      have hpc : (srcState w src s).pc = s.pc + extBytes src.ext := by
        rw [← reg_pc, reg_srcState w hwf]; simp [State.regAfterSrc]
      simp only [resolveDst, resolveIndexed_eq, dstEA, hpc, reg_srcState w hwf, twoTarget, dstValue, twoState]
      rw [valueAt_congr (mem_srcState w src s)]
      cases oddAt w _ <;> rfl

end Sys2Proof.Machine
end

