-- ==== Sys2Proof/Laws/Engine.lean ====
section
/-! SUPPORT. What the phases after ResolveOperands answer, said once, and what a two-operand instruction and CALL end in. -/

namespace Sys2Proof.Machine

/-! ## Memory writes of an operating width -/

/-- The state a write of width w at a readable address leaves (R54, R56). -/
def storeAt (w : Width) (s : State) (a v : Word) : State :=
  match w with
  | .word => s.setWordAt a v
  | .byte => s.writeByte a (v.extractLsb' 0 8)

@[simp] theorem reg_storeAt (w : Width) (s : State) (a v : Word) (q : Reg) : (storeAt w s a v).reg q = s.reg q := by
  cases w <;> rfl
@[simp] theorem run_storeAt (w : Width) (s : State) (a v : Word) : (storeAt w s a v).run = s.run := by cases w <;> rfl
@[simp] theorem draws_storeAt (w : Width) (s : State) (a v : Word) : (storeAt w s a v).draws = s.draws := by cases w <;> rfl

theorem memWrite_eq (w : Width) (s : State) (a v : Word) :
    s.memWrite w a v = match oddAt w (some a) with
      | some b => .error b
      | none => .ok (storeAt w s a v) := by
  cases w
  · simp only [State.memWrite, State.writeWord, oddAt, storeAt]
    split <;> simp_all
  · rfl

/-- What was stored reads back at the same width (R58). -/
theorem valueAt_storeAt (w : Width) (s : State) (a v : Word) : (storeAt w s a v).valueAt w a = maskW w v := by
  cases w
  · simp [storeAt, State.valueAt, maskW]
  · simp [storeAt, State.valueAt, maskW, readByte_writeByte]

theorem readByte_storeAt_ne (w : Width) (s : State) (a v b : Word) (h : b ≠ a) (h1 : w = .word → b ≠ a + 1#16) :
    (storeAt w s a v).readByte b = s.readByte b := by
  cases w
  · simp [storeAt, readByte_setWordAt, h, h1 rfl]
  · simp [storeAt, readByte_writeByte, h]

theorem wf_storeAt {s : State} (w : Width) (a v : Word) (h : Memory.wf s.mem = true) :
    Memory.wf (storeAt w s a v).mem = true := by
  cases w
  · exact wf_setWordAt a v h
  · exact wf_writeByte a _ h

/-! ## Masks -/

theorem maskW_maskW (w : Width) (v : Word) : maskW w (maskW w v) = maskW w v := by
  cases w
  · rfl
  · apply BitVec.eq_of_toNat_eq
    simp [maskW, BitVec.toNat_setWidth, BitVec.extractLsb'_toNat]

theorem toNat_maskW (w : Width) (v : Word) : (maskW w v).toNat = v.toNat % 2 ^ widthBits w := by
  cases w
  · simp [maskW, widthBits]
    omega
  · simp [maskW, widthBits, BitVec.toNat_setWidth, BitVec.extractLsb'_toNat]
    omega

theorem maskW_valueAt (w : Width) (s : State) (a : Word) : maskW w (s.valueAt w a) = s.valueAt w a := by
  cases w
  · rfl
  · apply BitVec.eq_of_toNat_eq
    rw [toNat_maskW]
    simp [State.valueAt, widthBits, BitVec.toNat_setWidth]
    omega

/-- Operand values are w-bit values (R34). -/
theorem maskW_srcValue (w : Width) (src : Src) (s : State) : maskW w (srcValue w src s) = srcValue w src s := by
  cases src <;> simp [srcValue, maskW_maskW, maskW_valueAt]

theorem maskW_dstValue (w : Width) (src : Src) (dst : Dst) (s : State) :
    maskW w (dstValue w src dst s) = dstValue w src dst s := by
  cases dst <;> simp [dstValue, maskW_maskW, maskW_valueAt]

theorem srcValue_lt (w : Width) (src : Src) (s : State) : (srcValue w src s).toNat < 2 ^ widthBits w := by
  rw [← maskW_srcValue, toNat_maskW]; exact Nat.mod_lt _ (Nat.pow_pos (by decide))

theorem dstValue_lt (w : Width) (src : Src) (dst : Dst) (s : State) :
    (dstValue w src dst s).toNat < 2 ^ widthBits w := by
  rw [← maskW_dstValue, toNat_maskW]; exact Nat.mod_lt _ (Nat.pow_pos (by decide))

/-! ## WriteBack and the end of a two-operand instruction -/

/-- The state WriteBack leaves at a readable target (R156). -/
def placeResult (w : Width) (target : Target) (result : Option Word) (s : State) : State :=
  match result, target with
  | none, _ => s
  | some r, .reg i => s.writeReg i (maskW w r)
  | some r, .mem ea => storeAt w s ea r
  | some _, .none => s

theorem writeBack_eq (w : Width) (src : Src) (dst : Dst) (s u : State) (result : Option Word)
    (h : oddAt w (dstEA w src dst s) = none) :
    writeBack w (twoTarget w src dst s) result u = .ok (placeResult w (twoTarget w src dst s) result u) := by
  cases result with
  | none => rfl
  | some r =>
    cases dst with
    | reg d => rfl
    | indexed d x =>
      have h' : oddAt w (some ((if d = Reg.sr then 0#16 else
        if d = Reg.pc then s.pc + extBytes src.ext + 2#16 else s.regAfterSrc w src d) + x)) = none := h
      simp only [twoTarget, dstEA, writeBack, placeResult, memWrite_eq, h']

/-- The resolved operands of a two-operand instruction, when they resolve. -/
def twoOperands (w : Width) (src : Src) (dst : Dst) (s : State) : Operands :=
  { state := twoState w src dst s, srcVal := srcValue w src s, dstVal := dstValue w src dst s,
    target := twoTarget w src dst s, cg := srcCg w src }

/-- The state a two-operand instruction ends in when its operands resolve (R150). -/
def twoResult (w : Width) (src : Src) (dst : Dst) (handler : Operands → HandlerResult) (s : State) : State :=
  let ops := twoOperands w src dst s
  let res := handler ops
  ((placeResult w ops.target res.result ops.state).updateFlagsOpt res.flags).advance res.suppressAdvance

/-- A TWO-OPERAND INSTRUCTION, said once: an AlignmentFault at the first odd operand, or `twoResult` (R150, R192, R248). -/
theorem runTwo_eq (i : Instr) (w : Width) {src : Src} (hwf : src.wf = true) (dst : Dst)
    (handler : Operands → HandlerResult) (s : State) :
    runTwo i w src dst handler s =
      match (oddAt w (srcEA src s)).or (oddAt w (dstEA w src dst s)) with
      | some a => .next (s.takeFault (s.alignmentRecord i a))
      | none => .next (twoResult w src dst handler s) := by
  unfold runTwo
  rw [resolveTwo_eq w hwf]
  cases h : (oddAt w (srcEA src s)).or (oddAt w (dstEA w src dst s)) with
  | some a => rfl
  | none =>
    have hd : oddAt w (dstEA w src dst s) = none := (Option.or_eq_none_iff.mp h).2
    simp only [finish, writeBack_eq w src dst s _ _ hd, settle, twoResult, twoOperands]

/-- An instruction with no handler (R154, R242): the first odd operand's AlignmentFault, or UnimplementedOpcode. -/
theorem unimplementedTwo_eq (i : Instr) (w : Width) {src : Src} (hwf : src.wf = true) (dst : Dst) (s : State) :
    unimplementedTwo i w src dst s =
      match (oddAt w (srcEA src s)).or (oddAt w (dstEA w src dst s)) with
      | some a => .next (s.takeFault (s.alignmentRecord i a))
      | none => .next (s.takeFault (s.unimplementedRecord i)) := by
  unfold unimplementedTwo unimplemented
  rw [resolveTwo_eq w hwf]
  cases (oddAt w (srcEA src s)).or (oddAt w (dstEA w src dst s)) <;> rfl

theorem unimplementedOne_eq (i : Instr) (w : Width) (op : Src) (s : State) :
    unimplementedOne i w op s =
      match oddAt w (srcEA op s) with
      | some a => .next (s.takeFault (s.alignmentRecord i a))
      | none => .next (s.takeFault (s.unimplementedRecord i)) := by
  unfold unimplementedOne unimplemented
  rw [resolveSrc_eq]
  cases oddAt w (srcEA op s) <;> rfl

/-- The state CALL ends in when its operand and its push address are readable (R205). -/
def callResult (w : Width) (op : Src) (s : State) : State :=
  let t := srcState w op s
  ((t.setSp (t.sp - 2#16)).setWordAt (t.sp - 2#16) (t.pc + 2#16)).setPc (srcValue w op s)

theorem sp_srcState (w : Width) {op : Src} (hwf : op.wf = true) (s : State) :
    (srcState w op s).sp - 2#16 = callPushAddr w op s := by
  rw [← reg_sp, reg_srcState w hwf]; rfl

/-- CALL, said once (R205): the operand's AlignmentFault, the push's, or the transfer. -/
theorem execCall_eq (w : Width) {op : Src} (hwf : op.wf = true) (s : State) :
    execCall w op s =
      match (oddAt w (srcEA op s)).or (oddAt .word (some (callPushAddr w op s))) with
      | some a => .next (s.takeFault (s.alignmentRecord (.call w op) a))
      | none => .next (callResult w op s) := by
  unfold execCall
  rw [resolveSrc_eq]
  cases h : oddAt w (srcEA op s) with
  | some a => rfl
  | none =>
    simp only [callTo, State.writeWord, sp_setSp, sp_srcState w hwf, oddAt, Option.none_or]
    by_cases he : isEven (callPushAddr w op s) = true
    · simp [he, callResult, sp_srcState w hwf, settle]
    · simp [he, settle]

/-! ## The fields of the end state -/

@[simp] theorem run_placeResult (w : Width) (g : Target) (r : Option Word) (s : State) :
    (placeResult w g r s).run = s.run := by
  cases r <;> cases g <;> simp [placeResult]

theorem reg_placeResult_ne (w : Width) (g : Target) (r : Option Word) (s : State) {q : Reg} (h : r = none ∨ g ≠ .reg q) :
    (placeResult w g r s).reg q = s.reg q := by
  cases r with
  | none => rfl
  | some v =>
    cases g with
    | reg i => exact reg_writeReg_ne _ _ (by rintro rfl; simp at h)
    | mem ea => simp [placeResult]
    | none => rfl

@[simp] theorem run_twoResult (w : Width) (src : Src) (dst : Dst) (hd : Operands → HandlerResult) (s : State) :
    (twoResult w src dst hd s).run = s.run := by
  simp [twoResult, twoOperands]

@[simp] theorem run_callResult (w : Width) (op : Src) (s : State) : (callResult w op s).run = s.run := by
  simp [callResult]

theorem wf_placeResult {s : State} (w : Width) (g : Target) (r : Option Word) (h : Memory.wf s.mem = true) :
    Memory.wf (placeResult w g r s).mem = true := by
  cases r with
  | none => exact h
  | some v =>
    cases g with
    | reg i => simpa [placeResult] using h
    | mem ea => exact wf_storeAt w ea v h
    | none => exact h

theorem draws_placeResult (w : Width) (g : Target) (r : Option Word) (s : State) (h : r = none ∨ g ≠ .reg Reg.sr) :
    (placeResult w g r s).draws = s.draws := by
  cases r with
  | none => rfl
  | some v =>
    cases g with
    | reg i =>
      have : i ≠ Reg.sr := by rintro rfl; simp at h
      simp [placeResult, writeReg_ne _ _ this]
    | mem ea => simp [placeResult]
    | none => rfl

@[simp] theorem draws_updateFlagsOpt (s : State) (f : Option FlagValues) : (s.updateFlagsOpt f).draws = s.draws := by
  cases f <;> rfl

/-- UpdateFlags leaves every bit of sr but 0, 1, 2 and 8 (R158). -/
theorem getLsbD_sr_updateFlagsOpt_ne (s : State) (f : Option FlagValues) {k : Nat} (h : 3 ≤ k) (h8 : k ≠ 8) :
    (s.updateFlagsOpt f).sr.getLsbD k = s.sr.getLsbD k := by
  cases f with
  | none => rfl
  | some f =>
    simp only [updateFlagsOpt_some, getLsbD_sr_updateFlags]
    rw [if_neg h8, if_neg (by omega), if_neg (by omega), if_neg (by omega)]

/-- A result goes to a register only when the destination is that register (R156). -/
theorem eq_reg_of_twoTarget {w : Width} {src : Src} {dst : Dst} {s : State} {r : Reg} (h : twoTarget w src dst s = .reg r) :
    dst = .reg r := by
  cases dst with
  | reg d => simpa [twoTarget] using h
  | indexed d x => simp [twoTarget, dstEA] at h

/-- Resolving both operands leaves sr: register 2 has no autoincrement (R126). -/
theorem sr_twoState (w : Width) {src : Src} (hwf : src.wf = true) (dst : Dst) (s : State) :
    (twoState w src dst s).sr = s.sr := by
  rw [← reg_sr, reg_twoState_ne w hwf dst s (by decide), if_neg]
  · rfl
  · rintro rfl; simp [Src.wf] at hwf

theorem mem_twoResult (w : Width) (src : Src) (dst : Dst) (hd : Operands → HandlerResult) (s : State) :
    (twoResult w src dst hd s).mem =
      (placeResult w (twoTarget w src dst s) (hd (twoOperands w src dst s)).result (twoState w src dst s)).mem := by
  simp [twoResult, twoOperands]

/-- The bytes after CALL: the return address below sp, every other byte as before (R205). -/
theorem readByte_callResult (w : Width) {op : Src} (hwf : op.wf = true) (s : State) (b : Word) :
    (callResult w op s).readByte b =
      if b = callPushAddr w op s + 1#16 then ((srcState w op s).pc + 2#16).extractLsb' 8 8
      else if b = callPushAddr w op s then ((srcState w op s).pc + 2#16).extractLsb' 0 8
      else s.readByte b := by
  simp only [callResult, sp_srcState w hwf]
  rw [readByte_setPc, readByte_setWordAt, readByte_setSp, readByte_congr (mem_srcState w op s)]

end Sys2Proof.Machine
end

