-- ==== Sys2Proof/Laws/Loader.lean ====
section
/-! SUPPORT. What the loader leaves in memory (spec/20_memory.md R64), and reset as the launch of nothing. -/

namespace Sys2Proof.Machine

theorem Segment.inRange_iff {image : List Byte} {g : Segment} :
    Segment.inRange image g = true ↔ g.address + g.length ≤ 65536 ∧ g.offset + g.length ≤ image.length := by
  unfold Segment.inRange Config.memorySize
  rw [Bool.and_eq_true, decide_eq_true_eq, decide_eq_true_eq]

/-- One segment's bytes, every other byte as before (R64). -/
theorem get_loadSegment (image : List Byte) (m : Memory) {g : Segment} (hg : Segment.inRange image g = true) (b : Nat) :
    Memory.get (loadSegment image m g) b =
      if g.address ≤ b ∧ b < g.address + g.length then image.getD (g.offset + (b - g.address)) 0#8
      else Memory.get m b := by
  rw [Segment.inRange_iff] at hg
  have hl : ((image.drop g.offset).take g.length).length = g.length := by simp; omega
  rw [loadSegment, get_storeBytes, hl]
  split
  · rename_i h
    simp only [List.getD_eq_getElem?_getD]
    rw [List.getElem?_take, if_pos (by omega), List.getElem?_drop]
  · rfl

theorem wf_loadSegments (image : List Byte) {gs : List Segment} (hr : gs.all (Segment.inRange image) = true) {m : Memory}
    (hm : Memory.wf m = true) : Memory.wf (loadSegments image gs m) = true := by
  induction gs generalizing m with
  | nil => exact hm
  | cons g rest ih =>
    simp only [List.all_cons, Bool.and_eq_true] at hr
    have := Segment.inRange_iff.mp hr.1
    rw [loadSegments, List.foldl_cons]
    exact ih hr.2 (wf_storeBytes (by simp [Config.memorySize]; omega) hm)

/-- Disjoint segments have no address in common (R64). -/
theorem Segment.disjoint_iff {g h : Segment} :
    g.disjoint h = true ↔
      ∀ a, g.address ≤ a ∧ a < g.address + g.length → ¬(h.address ≤ a ∧ a < h.address + h.length) := by
  unfold Segment.disjoint
  simp only [Bool.or_eq_true, beq_iff_eq, decide_eq_true_eq]
  constructor
  · intro h a; omega
  · intro hh
    have h1 := hh g.address
    have h2 := hh h.address
    omega

theorem segmentsDisjoint_iff {gs : List Segment} :
    segmentsDisjoint gs = true ↔ gs.Pairwise fun g h => g.disjoint h = true := by
  induction gs with
  | nil => simp [segmentsDisjoint]
  | cons g rest ih => simp [segmentsDisjoint, ih]

/-- Reset with no segment is the launch of an empty image (R271). -/
theorem reset_eq_launch_empty : launch [] [] = .next State.reset := by
  show Host.Outcome.next _ = _
  congr 1

end Sys2Proof.Machine
end

