-- ==== Sys2Proof/Laws/PerInstr.lean ====
section
/-! SUPPORT. Statements made per instruction: the family `OpcodeRow` holds each instruction's word against its row of
spec/opcode_table.json. -/

namespace Sys2Proof.Laws

/-- A two-operand word with its fields cleared is its operation (R81). -/
theorem two_operand_row (op : BitVec 4) (w : Width) (src : Src) (dst : Dst) :
    twoOperandWord op w src dst &&& 0xF000#16 = op ++ 0#12 := by
  unfold twoOperandWord
  apply BitVec.eq_of_getLsbD_eq
  intro k hk
  simp only [BitVec.getLsbD_and, BitVec.getLsbD_append]
  interval_cases k <;> simp

/-- A single-operand word with its fields cleared is its operation (R82). -/
theorem single_operand_row (op : BitVec 9) (w : Width) (src : Src) :
    singleOperandWord op w src &&& 0xFF80#16 = op ++ 0#7 := by
  unfold singleOperandWord
  apply BitVec.eq_of_getLsbD_eq
  intro k hk
  simp only [BitVec.getLsbD_and, BitVec.getLsbD_append]
  interval_cases k <;> simp

/-- A jump word with its offset cleared is its condition selector (R83). -/
theorem jump_row (cond : BitVec 3) (off : BitVec 10) : jumpWord cond off &&& 0xFC00#16 = 0b001#3 ++ cond ++ 0#10 := by
  unfold jumpWord
  apply BitVec.eq_of_getLsbD_eq
  intro k hk
  simp only [BitVec.getLsbD_and, BitVec.getLsbD_append]
  interval_cases k <;> simp

/-- The match and mask of an instruction's row of the opcode table. -/
def OpcodeRow.matchMask : Instr → Word × Word
  | .mov _ _ _ => (0x4000#16, 0xF000#16)
  | .add _ _ _ => (0x5000#16, 0xF000#16)
  | .addc _ _ _ => (0x6000#16, 0xF000#16)
  | .subc _ _ _ => (0x7000#16, 0xF000#16)
  | .sub _ _ _ => (0x8000#16, 0xF000#16)
  | .cmp _ _ _ => (0x9000#16, 0xF000#16)
  | .dadd _ _ _ => (0xA000#16, 0xF000#16)
  | .bit _ _ _ => (0xB000#16, 0xF000#16)
  | .bic _ _ _ => (0xC000#16, 0xF000#16)
  | .bis _ _ _ => (0xD000#16, 0xF000#16)
  | .xor _ _ _ => (0xE000#16, 0xF000#16)
  | .and _ _ _ => (0xF000#16, 0xF000#16)
  | .rrc _ _ => (0x1000#16, 0xFF80#16)
  | .swpb _ _ => (0x1080#16, 0xFF80#16)
  | .rra _ _ => (0x1100#16, 0xFF80#16)
  | .sxt _ _ => (0x1180#16, 0xFF80#16)
  | .push _ _ => (0x1200#16, 0xFF80#16)
  | .call _ _ => (0x1280#16, 0xFF80#16)
  | .reti _ _ => (0x1300#16, 0xFF80#16)
  | .jne _ => (0x2000#16, 0xFC00#16)
  | .jeq _ => (0x2400#16, 0xFC00#16)
  | .jnc _ => (0x2800#16, 0xFC00#16)
  | .jc _ => (0x2C00#16, 0xFC00#16)
  | .jn _ => (0x3000#16, 0xFC00#16)
  | .jge _ => (0x3400#16, 0xFC00#16)
  | .jl _ => (0x3800#16, 0xFC00#16)
  | .jmp _ => (0x3C00#16, 0xFC00#16)
  | .undefined0 _ => (0x0000#16, 0xF000#16)
  | .undefined1380 _ => (0x1380#16, 0xFF80#16)
  | .undefined1400 _ => (0x1400#16, 0xFC00#16)
  | .undefined1800 _ => (0x1800#16, 0xF800#16)

/-- The instruction's word under the mask of its row is the row's match. -/
def OpcodeRow.Statement (i : Instr) : Prop := i.word &&& (OpcodeRow.matchMask i).2 = (OpcodeRow.matchMask i).1

theorem OpcodeRow.mov (w : Width) (src : Src) (dst : Dst) : OpcodeRow.Statement (.mov w src dst) :=
  two_operand_row 0x4#4 w src dst
theorem OpcodeRow.add (w : Width) (src : Src) (dst : Dst) : OpcodeRow.Statement (.add w src dst) :=
  two_operand_row 0x5#4 w src dst
theorem OpcodeRow.addc (w : Width) (src : Src) (dst : Dst) : OpcodeRow.Statement (.addc w src dst) :=
  two_operand_row 0x6#4 w src dst
theorem OpcodeRow.subc (w : Width) (src : Src) (dst : Dst) : OpcodeRow.Statement (.subc w src dst) :=
  two_operand_row 0x7#4 w src dst
theorem OpcodeRow.sub (w : Width) (src : Src) (dst : Dst) : OpcodeRow.Statement (.sub w src dst) :=
  two_operand_row 0x8#4 w src dst
theorem OpcodeRow.cmp (w : Width) (src : Src) (dst : Dst) : OpcodeRow.Statement (.cmp w src dst) :=
  two_operand_row 0x9#4 w src dst
theorem OpcodeRow.dadd (w : Width) (src : Src) (dst : Dst) : OpcodeRow.Statement (.dadd w src dst) :=
  two_operand_row 0xA#4 w src dst
theorem OpcodeRow.bit (w : Width) (src : Src) (dst : Dst) : OpcodeRow.Statement (.bit w src dst) :=
  two_operand_row 0xB#4 w src dst
theorem OpcodeRow.bic (w : Width) (src : Src) (dst : Dst) : OpcodeRow.Statement (.bic w src dst) :=
  two_operand_row 0xC#4 w src dst
theorem OpcodeRow.bis (w : Width) (src : Src) (dst : Dst) : OpcodeRow.Statement (.bis w src dst) :=
  two_operand_row 0xD#4 w src dst
theorem OpcodeRow.xor (w : Width) (src : Src) (dst : Dst) : OpcodeRow.Statement (.xor w src dst) :=
  two_operand_row 0xE#4 w src dst
theorem OpcodeRow.and (w : Width) (src : Src) (dst : Dst) : OpcodeRow.Statement (.and w src dst) :=
  two_operand_row 0xF#4 w src dst
theorem OpcodeRow.rrc (w : Width) (op : Src) : OpcodeRow.Statement (.rrc w op) :=
  single_operand_row 0x020#9 w op
theorem OpcodeRow.swpb (w : Width) (op : Src) : OpcodeRow.Statement (.swpb w op) :=
  single_operand_row 0x021#9 w op
theorem OpcodeRow.rra (w : Width) (op : Src) : OpcodeRow.Statement (.rra w op) :=
  single_operand_row 0x022#9 w op
theorem OpcodeRow.sxt (w : Width) (op : Src) : OpcodeRow.Statement (.sxt w op) :=
  single_operand_row 0x023#9 w op
theorem OpcodeRow.push (w : Width) (op : Src) : OpcodeRow.Statement (.push w op) :=
  single_operand_row 0x024#9 w op
theorem OpcodeRow.call (w : Width) (op : Src) : OpcodeRow.Statement (.call w op) :=
  single_operand_row 0x025#9 w op
theorem OpcodeRow.reti (w : Width) (op : Src) : OpcodeRow.Statement (.reti w op) :=
  single_operand_row 0x026#9 w op
theorem OpcodeRow.jne (off : BitVec 10) : OpcodeRow.Statement (.jne off) :=
  jump_row 0b000#3 off
theorem OpcodeRow.jeq (off : BitVec 10) : OpcodeRow.Statement (.jeq off) :=
  jump_row 0b001#3 off
theorem OpcodeRow.jnc (off : BitVec 10) : OpcodeRow.Statement (.jnc off) :=
  jump_row 0b010#3 off
theorem OpcodeRow.jc (off : BitVec 10) : OpcodeRow.Statement (.jc off) :=
  jump_row 0b011#3 off
theorem OpcodeRow.jn (off : BitVec 10) : OpcodeRow.Statement (.jn off) :=
  jump_row 0b100#3 off
theorem OpcodeRow.jge (off : BitVec 10) : OpcodeRow.Statement (.jge off) :=
  jump_row 0b101#3 off
theorem OpcodeRow.jl (off : BitVec 10) : OpcodeRow.Statement (.jl off) :=
  jump_row 0b110#3 off
theorem OpcodeRow.jmp (off : BitVec 10) : OpcodeRow.Statement (.jmp off) :=
  jump_row 0b111#3 off
theorem OpcodeRow.undefined0 (low : BitVec 12) : OpcodeRow.Statement (.undefined0 low) := by
  unfold OpcodeRow.Statement OpcodeRow.matchMask Instr.word
  apply BitVec.eq_of_getLsbD_eq
  intro k hk
  simp only [BitVec.getLsbD_and, BitVec.getLsbD_append]
  interval_cases k <;> simp
theorem OpcodeRow.undefined1380 (low : BitVec 7) : OpcodeRow.Statement (.undefined1380 low) := by
  unfold OpcodeRow.Statement OpcodeRow.matchMask Instr.word
  apply BitVec.eq_of_getLsbD_eq
  intro k hk
  simp only [BitVec.getLsbD_and, BitVec.getLsbD_append]
  interval_cases k <;> simp
theorem OpcodeRow.undefined1400 (low : BitVec 10) : OpcodeRow.Statement (.undefined1400 low) := by
  unfold OpcodeRow.Statement OpcodeRow.matchMask Instr.word
  apply BitVec.eq_of_getLsbD_eq
  intro k hk
  simp only [BitVec.getLsbD_and, BitVec.getLsbD_append]
  interval_cases k <;> simp
theorem OpcodeRow.undefined1800 (low : BitVec 11) : OpcodeRow.Statement (.undefined1800 low) := by
  unfold OpcodeRow.Statement OpcodeRow.matchMask Instr.word
  apply BitVec.eq_of_getLsbD_eq
  intro k hk
  simp only [BitVec.getLsbD_and, BitVec.getLsbD_append]
  interval_cases k <;> simp

end Sys2Proof.Laws
end

