-- ==== Sys2Proof/Laws/Step.lean ====
section
/-! SUPPORT. What an instruction and a step can do, said once: the fault that `instrFault` names, or one of three end states. -/

namespace Sys2Proof.Machine

theorem wf_of_shape_two {i : Instr} {w : Width} {src : Src} {dst : Dst} (h : i.shape = .two w src dst) (hwf : i.wf = true) :
    src.wf = true := by
  cases i <;> simp [Instr.shape] at h <;> simp [Instr.wf] at hwf <;> simp [h.2.1 ▸ hwf.1]

theorem wf_of_shape_one {i : Instr} {w : Width} {op : Src} (h : i.shape = .one w op) (hwf : i.wf = true) :
    op.wf = true := by
  cases i <;> simp [Instr.shape] at h <;> simp [Instr.wf] at hwf <;> simp [h.2 ▸ hwf]

/-- WHAT AN INSTRUCTION ANSWERS (R150, R246, R248): a next state; the one the fault that `instrFault` names leaves, or one whose
run state is as before. -/
theorem exec_answers (i : Instr) (s : State) (hwf : i.wf = true) :
    ∃ t, exec i s = .next t ∧
      match instrFault i s with
      | some x => t = s.takeFault x
      | none => t.run = s.run := by
  cases i with
  | mov w src dst | add w src dst | sub w src dst | cmp w src dst | bis w src dst | xor w src dst =>
    have hs : src.wf = true := by simp [Instr.wf] at hwf; exact hwf.1
    simp only [exec, execMov, execAdd, execSub, execCmp, execBis, execXor, runTwo_eq _ w hs]
    simp only [instrFault, Instr.mnemonic, oddOperand, Instr.shape, Mnemonic.implemented]
    cases (oddAt w (srcEA src s)).or (oddAt w (dstEA w src dst s)) with
    | some a => exact ⟨_, rfl, rfl⟩
    | none => exact ⟨_, rfl, run_twoResult _ _ _ _ _⟩
  | addc w src dst | subc w src dst | dadd w src dst | bit w src dst | bic w src dst | and w src dst =>
    have hs : src.wf = true := by simp [Instr.wf] at hwf; exact hwf.1
    simp only [exec, execAddc, execSubc, execDadd, execBit, execBic, execAnd, unimplementedTwo_eq _ w hs]
    simp only [instrFault, Instr.mnemonic, oddOperand, Instr.shape, Mnemonic.implemented]
    cases (oddAt w (srcEA src s)).or (oddAt w (dstEA w src dst s)) <;> exact ⟨_, rfl, rfl⟩
  | rrc w op | swpb w op | rra w op | sxt w op | push w op | reti w op =>
    simp only [exec, execRrc, execSwpb, execRra, execSxt, execPush, execReti, unimplementedOne_eq]
    simp only [instrFault, Instr.mnemonic, oddOperand, Instr.shape, Mnemonic.implemented]
    cases oddAt w (srcEA op s) <;> exact ⟨_, rfl, rfl⟩
  | call w op =>
    have hs : op.wf = true := by simpa [Instr.wf] using hwf
    simp only [exec, execCall_eq w hs]
    simp only [instrFault, Instr.mnemonic, oddOperand, Instr.shape, Mnemonic.implemented]
    cases oddAt w (srcEA op s) with
    | some a => exact ⟨_, rfl, rfl⟩
    | none => by_cases he : isEven (callPushAddr w op s) = true <;> simp [oddAt, he]
  | jne | jnc | jc | jn | jge | jl => exact ⟨_, rfl, rfl⟩
  | jeq off =>
    refine ⟨_, rfl, ?_⟩
    show (State.advance false (if s.flagZ = true then s.jumpBy off else s)).run = s.run
    split <;> rfl
  | jmp off => exact ⟨_, rfl, rfl⟩
  | undefined0 | undefined1380 | undefined1400 | undefined1800 => exact ⟨_, rfl, rfl⟩

/-- An instruction that does not fault has readable operands. -/
theorem oddOperand_of_instrFault {i : Instr} {s : State} (h : instrFault i s = none) : oddOperand i s = none := by
  unfold instrFault at h
  split at h
  · cases h
  · split at h
    · cases h
    · assumption

/-- The resolver's outputs, where the operands are readable (R35, R120). -/
theorem operandView_eq {i : Instr} {s : State} (hwf : i.wf = true) (h : oddOperand i s = none) :
    operandView i s = operandsInClosedForm i s := by
  unfold operandView operandsInClosedForm
  cases hi : i.shape with
  | two w src dst =>
    simp only [oddOperand, hi] at h
    simp only [resolveTwo_eq w (wf_of_shape_two hi hwf), h]
  | one w op =>
    simp only [oddOperand, hi] at h
    simp only [resolveSrc_eq, h]
  | none => rfl

/-- The end state of a two-operand instruction and what is known of its handler's answer (R155 to R163). -/
def EndsTwoOperand (i : Instr) (s t : State) : Prop :=
  ∃ m w src dst hd, i.shape = .two w src dst ∧ i.mnemonic = some m ∧ src.wf = true ∧
    (oddAt w (srcEA src s)).or (oddAt w (dstEA w src dst s)) = none ∧ t = twoResult w src dst hd s ∧
    ((hd (twoOperands w src dst s)).result = none ↔ m = .cmp) ∧
    ((hd (twoOperands w src dst s)).flags = none ↔ m = .mov ∨ m = .bis) ∧
    ((hd (twoOperands w src dst s)).suppressAdvance = true ↔ m = .mov ∧ dst = .reg Reg.pc) ∧
    instrWrites i s =
      match (hd (twoOperands w src dst s)).result, twoTarget w src dst s with
      | some r, .mem ea => [{ addr := ea, width := w, value := maskW w r }]
      | _, _ => []

/-- THE THREE ENDS of an instruction that does not fault: a two-operand result, a CALL, or a jump taken or not (R154). -/
theorem exec_ends {i : Instr} {s t : State} (hwf : i.wf = true) (hf : instrFault i s = none) (ht : exec i s = .next t) :
    EndsTwoOperand i s t ∨
    (∃ w op, i = .call w op ∧ op.wf = true ∧ oddAt w (srcEA op s) = none ∧ isEven (callPushAddr w op s) = true ∧
      t = callResult w op s ∧
      instrWrites i s = [{ addr := callPushAddr w op s, width := .word, value := (srcState w op s).pc + 2#16 }]) ∨
    (∃ (off : BitVec 10) (taken : Bool), (i = .jeq off ∧ taken = s.flagZ ∨ i = .jmp off ∧ taken = true) ∧
      t = (if taken then s.jumpBy off else s).bumpPc ∧ instrWrites i s = []) := by
  have hrd := oddOperand_of_instrFault hf
  cases i with
  | mov w src dst =>
    refine .inl ⟨.mov, w, src, dst, movHandler, rfl, rfl, wf_of_shape_two rfl hwf, hrd, ?_, by simp [movHandler],
      by simp [movHandler], ?_, ?_⟩
    · simp only [exec, execMov, runTwo_eq _ w (wf_of_shape_two rfl hwf)] at ht
      simp only [oddOperand, Instr.shape] at hrd
      rw [hrd] at ht
      exact (Host.Outcome.next.inj ht).symm
    · cases dst with
      | reg d => simp [movHandler, twoOperands, twoTarget, Target.isPc]
      | indexed d x => simp [movHandler, twoOperands, twoTarget, dstEA, Target.isPc]
    · simp only [instrWrites, twoOperandWrites, resolveTwo_eq _ (wf_of_shape_two rfl hwf)]
      simp only [oddOperand, Instr.shape] at hrd
      rw [hrd]; rfl
  | add w src dst =>
    refine .inl ⟨.add, w, src, dst, addHandler w, rfl, rfl, wf_of_shape_two rfl hwf, hrd, ?_, by simp [addHandler],
      by simp [addHandler], by simp [addHandler], ?_⟩
    · simp only [exec, execAdd, runTwo_eq _ w (wf_of_shape_two rfl hwf)] at ht
      simp only [oddOperand, Instr.shape] at hrd
      rw [hrd] at ht
      exact (Host.Outcome.next.inj ht).symm
    · simp only [instrWrites, twoOperandWrites, resolveTwo_eq _ (wf_of_shape_two rfl hwf)]
      simp only [oddOperand, Instr.shape] at hrd
      rw [hrd]; rfl
  | sub w src dst =>
    refine .inl ⟨.sub, w, src, dst, subHandler w, rfl, rfl, wf_of_shape_two rfl hwf, hrd, ?_, by simp [subHandler],
      by simp [subHandler], by simp [subHandler], ?_⟩
    · simp only [exec, execSub, runTwo_eq _ w (wf_of_shape_two rfl hwf)] at ht
      simp only [oddOperand, Instr.shape] at hrd
      rw [hrd] at ht
      exact (Host.Outcome.next.inj ht).symm
    · simp only [instrWrites, twoOperandWrites, resolveTwo_eq _ (wf_of_shape_two rfl hwf)]
      simp only [oddOperand, Instr.shape] at hrd
      rw [hrd]; rfl
  | cmp w src dst =>
    refine .inl ⟨.cmp, w, src, dst, cmpHandler w, rfl, rfl, wf_of_shape_two rfl hwf, hrd, ?_, by simp [cmpHandler],
      by simp [cmpHandler], by simp [cmpHandler], by simp [instrWrites, cmpHandler]⟩
    simp only [exec, execCmp, runTwo_eq _ w (wf_of_shape_two rfl hwf)] at ht
    simp only [oddOperand, Instr.shape] at hrd
    rw [hrd] at ht
    exact (Host.Outcome.next.inj ht).symm
  | bis w src dst =>
    refine .inl ⟨.bis, w, src, dst, bisHandler, rfl, rfl, wf_of_shape_two rfl hwf, hrd, ?_, by simp [bisHandler],
      by simp [bisHandler], by simp [bisHandler], ?_⟩
    · simp only [exec, execBis, runTwo_eq _ w (wf_of_shape_two rfl hwf)] at ht
      simp only [oddOperand, Instr.shape] at hrd
      rw [hrd] at ht
      exact (Host.Outcome.next.inj ht).symm
    · simp only [instrWrites, twoOperandWrites, resolveTwo_eq _ (wf_of_shape_two rfl hwf)]
      simp only [oddOperand, Instr.shape] at hrd
      rw [hrd]; rfl
  | xor w src dst =>
    refine .inl ⟨.xor, w, src, dst, xorHandler w, rfl, rfl, wf_of_shape_two rfl hwf, hrd, ?_, by simp [xorHandler],
      by simp [xorHandler], by simp [xorHandler], ?_⟩
    · simp only [exec, execXor, runTwo_eq _ w (wf_of_shape_two rfl hwf)] at ht
      simp only [oddOperand, Instr.shape] at hrd
      rw [hrd] at ht
      exact (Host.Outcome.next.inj ht).symm
    · simp only [instrWrites, twoOperandWrites, resolveTwo_eq _ (wf_of_shape_two rfl hwf)]
      simp only [oddOperand, Instr.shape] at hrd
      rw [hrd]; rfl
  | call w op =>
    have hop : op.wf = true := by simpa [Instr.wf] using hwf
    have ho : oddAt w (srcEA op s) = none := hrd
    have he : isEven (callPushAddr w op s) = true := by
      simp [instrFault, Instr.mnemonic, hrd, Mnemonic.implemented] at hf; exact hf
    refine .inr (.inl ⟨w, op, rfl, hop, ho, he, ?_, ?_⟩)
    · simp only [exec, execCall_eq w hop, ho] at ht
      simp [oddAt, he] at ht
      exact ht.symm
    · simp only [instrWrites, callWrites, resolveSrc_eq, ho, sp_srcState w hop]
  | jeq off => exact .inr (.inr ⟨off, s.flagZ, .inl ⟨rfl, rfl⟩, (Host.Outcome.next.inj ht).symm, rfl⟩)
  | jmp off => exact .inr (.inr ⟨off, true, .inr ⟨rfl, rfl⟩, (Host.Outcome.next.inj ht).symm, rfl⟩)
  | _ => simp [instrFault, Instr.mnemonic, hrd, Mnemonic.implemented] at hf

/-! ## Step -/

/-- A step of a dead block (R36). -/
theorem step_of_dead {s : State} {x : FaultRecord} (h : s.run = .dead x) : step s = .next s := by
  simp [step, h, State.stepDead]

/-- A step whose fetch is in order is the instruction at pc (R151, R152). -/
theorem step_of_fetchable {s : State} (h : s.run = .running) (h1 : ¬ s.pc ≤ Config.ioLimit) (h2 : isEven s.pc = true) :
    step s = exec (s.instrAt s.pc) s := by
  simp only [step, h, State.fetch, if_neg h1, State.readWord, h2]
  rfl

theorem afterStep_of_step {s t : State} (h : step s = .next t) : s.afterStep = t := by simp [State.afterStep, h]

end Sys2Proof.Machine
end

