-- ==== Sys2Proof/Tests/Slice0.lean ====
section
/-! SUPPORT. The model's own tests: ill-formed operands refused, a word of every row decoded, single steps from the vectors of
spec/95_test_vectors.md (their ids in the comments), and for every statement with hypotheses a state that meets them. -/

namespace Sys2Proof.Tests

open Sys2Proof.Machine Sys2Proof.Claims

/-! ## States -/

/-- Words stored from an address upward. -/
def storeWords : State → Word → List Word → State
  | s, _, [] => s
  | s, a, w :: ws => storeWords (s.setWordAt a w) (a + 2#16) ws

/-- The start state of the vectors: the instruction at 0xC000, pc there, the registers and memory words stated, all else 0. -/
def start (words : List Word) (regs : List (Reg × Word)) (mem : List (Word × Word)) : State :=
  let s := storeWords (State.reset.setPc 0xC000#16) 0xC000#16 words
  let s := regs.foldl (fun s p => s.setReg p.1 p.2) s
  mem.foldl (fun s p => s.setWordAt p.1 p.2) s

/-- The state after one step of `start`. -/
def after (words : List Word) (regs : List (Reg × Word)) (mem : List (Word × Word)) : State := (start words regs mem).afterStep

/-- C, Z, N, V, in the order of the vectors. -/
def flags (s : State) : Bool × Bool × Bool × Bool := (s.flagC, s.flagZ, s.flagN, s.flagV)

/-- The state before the step, dead with a record whose pc is 0xC000. -/
def died (s : State) (kind : Fault) (word : Option Word) (mnemonic : Option Mnemonic) (accessAddr : Option Word) : State :=
  { s with run := .dead { kind := kind, pc := 0xC000#16, word := word, mnemonic := mnemonic, accessAddr := accessAddr } }

/-! ## WellFormed refuses every operand without an encoding (R90) -/

theorem test_wf_refuses_reg_3 : Instr.wf (.mov .word (.reg 3#4) (.reg 5#4)) = false := by decide
theorem test_wf_refuses_indexed_3 : Instr.wf (.add .word (.indexed 3#4 4#16) (.reg 5#4)) = false := by decide
theorem test_wf_refuses_indirect_2_3 :
    Instr.wf (.cmp .word (.indirect 2#4) (.reg 5#4)) = false ∧ Instr.wf (.call .word (.indirect 3#4)) = false := by decide
theorem test_wf_refuses_autoinc_0_2_3 :
    Instr.wf (.bis .word (.autoinc 0#4) (.reg 5#4)) = false ∧ Instr.wf (.push .byte (.autoinc 2#4)) = false ∧
    Instr.wf (.xor .byte (.autoinc 3#4) (.reg 5#4)) = false := by decide
theorem test_wf_admits_register_3_as_destination :
    Instr.wf (.mov .word (.imm 0x1234#16) (.reg 3#4)) = true ∧
    Instr.wf (.mov .word (.const .two) (.indexed 3#4 4#16)) = true := by decide

/-! ## One word of every row, written out from its encoding (R81 to R83, R85, R86, R88, R97) -/

theorem test_decode_mov : decodeTableWord 48 0x00200010_4495 = some (.mov .word (.indexed 4#4 0x10#16) (.indexed 5#4 0x20#16)) := by decide
theorem test_decode_add : decodeTableWord 16 0b0101_0100_0_1_11_0101 = some (.add .byte (.autoinc 4#4) (.reg 5#4)) := by decide
theorem test_decode_addc : decodeTableWord 16 0b0110_0100_0_0_00_0101 = some (.addc .word (.reg 4#4) (.reg 5#4)) := by decide
theorem test_decode_subc : decodeTableWord 16 0b0111_0110_0_0_10_0101 = some (.subc .word (.indirect 6#4) (.reg 5#4)) := by decide
theorem test_decode_sub : decodeTableWord 16 0b1000_0011_0_0_00_0101 = some (.sub .word (.const .zero) (.reg 5#4)) := by decide
theorem test_decode_cmp : decodeTableWord 32 0x0001_9485 = some (.cmp .word (.reg 4#4) (.indexed 5#4 1#16)) := by decide
theorem test_decode_dadd : decodeTableWord 16 0b1010_0100_0_0_11_0101 = some (.dadd .word (.autoinc 4#4) (.reg 5#4)) := by decide
theorem test_decode_bit : decodeTableWord 16 0b1011_0100_0_1_00_0101 = some (.bit .byte (.reg 4#4) (.reg 5#4)) := by decide
theorem test_decode_bic : decodeTableWord 16 0b1100_0011_0_0_01_0010 = some (.bic .word (.const .one) (.reg 2#4)) := by decide
theorem test_decode_bis : decodeTableWord 32 0x0010_D032 = some (.bis .word (.imm 0x10#16) (.reg 2#4)) := by decide
theorem test_decode_xor : decodeTableWord 16 0b1110_0011_0_1_11_0101 = some (.xor .byte (.const .minusOne) (.reg 5#4)) := by decide
theorem test_decode_and : decodeTableWord 32 0x0000_FFFF = some (.and .byte (.autoinc 15#4) (.indexed 15#4 0#16)) := by decide
theorem test_decode_rrc : decodeTableWord 16 0b000100000_1_11_1111 = some (.rrc .byte (.autoinc 15#4)) := by decide
theorem test_decode_swpb : decodeTableWord 16 0b000100001_0_00_0101 = some (.swpb .word (.reg 5#4)) := by decide
theorem test_decode_rra : decodeTableWord 16 0b000100010_0_10_0101 = some (.rra .word (.indirect 5#4)) := by decide
theorem test_decode_sxt : decodeTableWord 32 0x0300_1192 = some (.sxt .word (.indexed 2#4 0x300#16)) := by decide
theorem test_decode_push : decodeTableWord 16 0b000100100_0_11_0010 = some (.push .word (.const .eight)) := by decide
theorem test_decode_call : decodeTableWord 32 0xD000_12B0 = some (.call .word (.imm 0xD000#16)) := by decide
theorem test_decode_reti : decodeTableWord 16 0b000100110_1_11_1111 = some (.reti .byte (.autoinc 15#4)) := by decide
theorem test_decode_jne : decodeTableWord 16 0b001_000_1111111111 = some (.jne 0b1111111111#10) := by decide
theorem test_decode_jeq : decodeTableWord 16 0b001_001_0000000010 = some (.jeq 0b0000000010#10) := by decide
theorem test_decode_jnc : decodeTableWord 16 0b001_010_0000000001 = some (.jnc 0b0000000001#10) := by decide
theorem test_decode_jc : decodeTableWord 16 0b001_011_0000000001 = some (.jc 0b0000000001#10) := by decide
theorem test_decode_jn : decodeTableWord 16 0b001_100_0000000001 = some (.jn 0b0000000001#10) := by decide
theorem test_decode_jge : decodeTableWord 16 0b001_101_0000000001 = some (.jge 0b0000000001#10) := by decide
theorem test_decode_jl : decodeTableWord 16 0b001_110_0000000001 = some (.jl 0b0000000001#10) := by decide
theorem test_decode_jmp : decodeTableWord 16 0b001_111_1000000000 = some (.jmp 0b1000000000#10) := by decide
theorem test_decode_undefined0 : decodeTableWord 16 0b0000_101010111100 = some (.undefined0 0xABC#12) := by decide
theorem test_decode_undefined1380 : decodeTableWord 16 0b000100111_0000101 = some (.undefined1380 5#7) := by decide
theorem test_decode_undefined1400 : decodeTableWord 16 0b000101_0000000011 = some (.undefined1400 3#10) := by decide
theorem test_decode_undefined1800 : decodeTableWord 16 0b00011_11111111111 = some (.undefined1800 0x7FF#11) := by decide
theorem test_decode_refuses_a_cut_instruction :
    decode [0x30#8] = .error .noInstructionWord ∧ decode [0x30#8, 0x40#8] = .error .noExtensionWord := ⟨rfl, rfl⟩

/-! ## Single steps -/

-- O11
theorem test_mov_symbolic_operands :
    let t := after [0x4090#16, 0x0100#16, 0x0200#16] [] [(0xC102#16, 0x5555#16)]
    t.wordAt 0xC204#16 = 0x5555#16 ∧ t.reg 0#4 = 0xC006#16 ∧ flags t = (false, false, false, false) := by decide
-- A3
theorem test_mov_into_pc :
    let t := after [0x4030#16, 0xD000#16] [] []
    t.reg 0#4 = 0xD000#16 := by decide
-- O12
theorem test_add_autoincrement_and_same_register :
    let t := after [0x5434#16] [(4#4, 0x0300#16)] [(0x0300#16, 0x0005#16)]
    t.reg 4#4 = 0x0307#16 ∧ t.reg 0#4 = 0xC002#16 ∧ flags t = (false, false, false, false) := by decide
-- A8
theorem test_add_byte_overflow :
    let t := after [0x5355#16] [(5#4, 0x127F#16)] []
    t.reg 5#4 = 0x0080#16 ∧ flags t = (false, false, true, true) := by decide
-- A10
theorem test_sub_zero_gives_no_carry :
    let t := after [0x8305#16] [(5#4, 0x0005#16)] []
    t.reg 5#4 = 0x0005#16 ∧ flags t = (false, false, false, false) := by decide
-- A16
theorem test_sub_overflow :
    let t := after [0x8315#16] [(5#4, 0x8000#16)] []
    t.reg 5#4 = 0x7FFF#16 ∧ flags t = (true, false, false, true) := by decide
-- A18
theorem test_cmp_equal :
    let t := after [0x9405#16] [(4#4, 0x0005#16), (5#4, 0x0005#16)] []
    t.reg 5#4 = 0x0005#16 ∧ flags t = (true, true, false, false) := by decide
-- A26
theorem test_cmp_with_pc :
    let t := after [0x9310#16] [] []
    t.reg 0#4 = 0xC002#16 ∧ flags t = (true, false, true, false) := by decide
-- A20
theorem test_bis_leaves_flags :
    let t := after [0xD405#16] [(4#4, 0x00F0#16), (5#4, 0x0F00#16), (2#4, 0x0007#16)] []
    t.reg 5#4 = 0x0FF0#16 ∧ t.reg 2#4 = 0x0007#16 := by decide
-- A21: the drawn reserved bits are not evaluated
theorem test_bis_sets_carry_in_sr :
    let t := after [0xD312#16] [] []
    t.sr.extractLsb' 0 9 = 0x001#9 ∧ t.pc = 0xC002#16 := by
  have h : after [0xD312#16] [] [] = ((start [0xD312#16] [] []).writeSr 1#16).bumpPc := rfl
  rw [h]
  exact ⟨(congrArg (BitVec.extractLsb' 0 9) (sr_advance _ false)).trans (sr_writeSr_low _ _), rfl⟩
-- A24
theorem test_xor_negative_operands :
    let t := after [0xE405#16] [(4#4, 0x8000#16), (5#4, 0xC000#16)] []
    t.reg 5#4 = 0x4000#16 ∧ flags t = (true, false, false, false) := by decide
-- P3 step 2
theorem test_xor_byte_constant :
    let t := after [0xE375#16] [(5#4, 0x0041#16)] []
    t.reg 5#4 = 0x00BE#16 ∧ flags t = (true, false, true, false) := by decide
-- B7
theorem test_call_sp_autoincrement :
    let t := after [0x12B1#16] [(1#4, 0x03FC#16)] [(0x03FC#16, 0xD000#16)]
    t.reg 1#4 = 0x03FC#16 ∧ t.wordAt 0x03FC#16 = 0xC002#16 ∧ t.reg 0#4 = 0xD000#16 := by decide
-- J4
theorem test_jeq_reads_only_z :
    let t := after [0x2402#16] [(2#4, 0x010D#16)] []
    t.reg 0#4 = 0xC002#16 := by decide
-- J1
theorem test_jeq_taken :
    let t := after [0x2402#16] [(2#4, 0x0002#16)] []
    t.reg 0#4 = 0xC006#16 := by decide
-- J8
theorem test_jmp_backward :
    let t := after [0x3E00#16] [] []
    t.reg 0#4 = 0xBC02#16 := by decide
-- B6
theorem test_call_push_at_an_odd_address :
    after [0x1285#16] [(1#4, 0x0401#16), (5#4, 0xD000#16)] [] =
      died (start [0x1285#16] [(1#4, 0x0401#16), (5#4, 0xD000#16)] []) .alignmentFault (some 0x1285#16) (some .call) (some 0x03FF#16) := by
  decide
-- A27
theorem test_addc_unimplemented :
    after [0x6405#16] [] [] =
      died (start [0x6405#16] [] []) .unimplementedOpcode (some 0x6405#16) (some .addc) none := by
  decide
-- A32
theorem test_subc_unimplemented :
    after [0x7405#16] [] [] =
      died (start [0x7405#16] [] []) .unimplementedOpcode (some 0x7405#16) (some .subc) none := by
  decide
-- A32
theorem test_bit_unimplemented :
    after [0xB405#16] [] [] =
      died (start [0xB405#16] [] []) .unimplementedOpcode (some 0xB405#16) (some .bit) none := by
  decide
-- A28
theorem test_bic_unimplemented :
    after [0xC312#16] [] [] =
      died (start [0xC312#16] [] []) .unimplementedOpcode (some 0xC312#16) (some .bic) none := by
  decide
-- B10
theorem test_rrc_unimplemented :
    after [0x1005#16] [] [] =
      died (start [0x1005#16] [] []) .unimplementedOpcode (some 0x1005#16) (some .rrc) none := by
  decide
-- B10
theorem test_swpb_unimplemented :
    after [0x1085#16] [] [] =
      died (start [0x1085#16] [] []) .unimplementedOpcode (some 0x1085#16) (some .swpb) none := by
  decide
-- B10
theorem test_rra_unimplemented :
    after [0x1105#16] [] [] =
      died (start [0x1105#16] [] []) .unimplementedOpcode (some 0x1105#16) (some .rra) none := by
  decide
-- B10
theorem test_sxt_unimplemented :
    after [0x1185#16] [] [] =
      died (start [0x1185#16] [] []) .unimplementedOpcode (some 0x1185#16) (some .sxt) none := by
  decide
-- B10
theorem test_reti_unimplemented :
    after [0x1300#16] [] [] =
      died (start [0x1300#16] [] []) .unimplementedOpcode (some 0x1300#16) (some .reti) none := by
  decide
-- B11
theorem test_push_unimplemented :
    after [0x1205#16] [(1#4, 0x0400#16)] [] =
      died (start [0x1205#16] [(1#4, 0x0400#16)] []) .unimplementedOpcode (some 0x1205#16) (some .push) none := by
  decide
-- J10
theorem test_jne_unimplemented :
    after [0x2001#16] [] [] =
      died (start [0x2001#16] [] []) .unimplementedOpcode (some 0x2001#16) (some .jne) none := by
  decide
-- J11
theorem test_jnc_unimplemented :
    after [0x2801#16] [] [] =
      died (start [0x2801#16] [] []) .unimplementedOpcode (some 0x2801#16) (some .jnc) none := by
  decide
-- J11
theorem test_jc_unimplemented :
    after [0x2C01#16] [] [] =
      died (start [0x2C01#16] [] []) .unimplementedOpcode (some 0x2C01#16) (some .jc) none := by
  decide
-- J11
theorem test_jn_unimplemented :
    after [0x3001#16] [] [] =
      died (start [0x3001#16] [] []) .unimplementedOpcode (some 0x3001#16) (some .jn) none := by
  decide
-- J11
theorem test_jge_unimplemented :
    after [0x3401#16] [] [] =
      died (start [0x3401#16] [] []) .unimplementedOpcode (some 0x3401#16) (some .jge) none := by
  decide
-- J11
theorem test_jl_unimplemented :
    after [0x3801#16] [] [] =
      died (start [0x3801#16] [] []) .unimplementedOpcode (some 0x3801#16) (some .jl) none := by
  decide
-- A30
theorem test_dadd_discards_the_autoincrement :
    after [0xA435#16] [(4#4, 0x0300#16)] [(0x0300#16, 0x0007#16)] =
      died (start [0xA435#16] [(4#4, 0x0300#16)] [(0x0300#16, 0x0007#16)]) .unimplementedOpcode (some 0xA435#16) (some .dadd) none := by
  decide
-- A29
theorem test_and_alignment_first :
    after [0xF425#16] [(4#4, 0x0301#16)] [] =
      died (start [0xF425#16] [(4#4, 0x0301#16)] []) .alignmentFault (some 0xF425#16) (some .and) (some 0x0301#16) := by
  decide
-- S10
theorem test_undefined_0ABC :
    after [0x0ABC#16] [] [] =
      died (start [0x0ABC#16] [] []) .undefinedOpcode (some 0x0ABC#16) none none := by
  decide
-- F6
theorem test_undefined_1380 :
    after [0x1380#16] [] [] =
      died (start [0x1380#16] [] []) .undefinedOpcode (some 0x1380#16) none none := by
  decide
-- E6
theorem test_undefined_1400 :
    after [0x1400#16] [] [] =
      died (start [0x1400#16] [] []) .undefinedOpcode (some 0x1400#16) none none := by
  decide
-- E6
theorem test_undefined_1FFF :
    after [0x1FFF#16] [] [] =
      died (start [0x1FFF#16] [] []) .undefinedOpcode (some 0x1FFF#16) none none := by
  decide
-- F1, F2, F4
theorem test_fetch_faults :
    (State.reset.setPc 0x01FF#16).afterStep.run = .dead (State.reset.setPc 0x01FF#16).peripheralRecord ∧
    (State.reset.setPc 0xC001#16).afterStep.run =
      .dead { kind := .alignmentFault, pc := 0xC001#16, word := none, mnemonic := none, accessAddr := some 0xC001#16 } := by decide

/-! ## Memory, reset and loader -/

-- M3
theorem test_word_at_the_top_of_memory :
    let t := State.reset.setWordAt 0xFFFE#16 0xC000#16
    t.readByte 0xFFFE#16 = 0x00#8 ∧ t.readByte 0xFFFF#16 = 0xC0#8 ∧ t.readByte 0x0000#16 = 0x00#8 := by decide
theorem test_writing_zero_unlists : (State.reset.setWordAt 0x0300#16 0xBEEF#16).setWordAt 0x0300#16 0#16 = State.reset := by decide
-- I2
theorem test_reset_without_vector :
    State.reset.afterStep.run =
      .dead { kind := .peripheralFetchFault, pc := 0#16, word := none, mnemonic := none, accessAddr := none } := by decide
-- I5, I6
theorem test_invalid_launches_are_refused :
    launch [1#8, 2#8] [{ offset := 0, address := 0xC000, length := 2 }, { offset := 1, address := 0xC000, length := 1 }] =
      .refused .segmentsOverlap ∧
    launch (List.replicate 32 1#8) [{ offset := 0, address := 0xFFF0, length := 0x20 }] = .refused .segmentOutOfRange :=
  ⟨rfl, rfl⟩
-- S7: the effective address and both values are in the report (R35)
theorem test_report_of_a_memory_destination :
    stepReport (start [0x5495#16, 0x0010#16, 0x0020#16] [(4#4, 0x1000#16), (5#4, 0x2000#16)]
        [(0x1010#16, 0x0050#16), (0x2020#16, 0x0100#16)]) =
      .ok 0xC000#16 0x5495#16 .twoOperand (some .add) (.add .word (.indexed 4#4 0x10#16) (.indexed 5#4 0x20#16))
        { srcVal := some 0x0050#16, dstVal := some 0x0100#16, target := .mem 0x2020#16, cg := .notFired } := by
  decide
-- S11
theorem test_constant_generator_record :
    stepReport (start [0x4335#16] [] []) =
      .ok 0xC000#16 0x4335#16 .twoOperand (some .mov) (.mov .word (.const .minusOne) (.reg 5#4))
        { srcVal := some 0xFFFF#16, dstVal := some 0#16, target := .reg 5#4, cg := { fired := true, literal := 0xFFFF#16 } } := by
  decide

/-! ## Witnesses: for each statement with hypotheses, a state and operands that meet them all -/

/-- A state with even and odd registers: R4 and R1 odd, R5 and R6 even. -/
def base : State := start [0x5495#16, 0x0010#16, 0x0020#16] [(4#4, 0x0301#16), (5#4, 0x0300#16), (6#4, 0x0400#16), (1#4, 0x0401#16)] []

/-- The same with an even sp. -/
def baseEven : State := base.setReg 1#4 0x0400#16

theorem witness_DecodeOfEncodeIsTheInstruction :
    Instr.wf (.and .byte (.autoinc 15#4) (.indexed 3#4 0xFFFF#16)) = true := by
  decide
theorem witness_TopNibbleSelectsTheFormat :
    (0x4000#16 ≤ 0x4000#16 ∧ 0x4000#16 ≤ 0xFFFF#16) ∧
    (0x2000#16 ≤ 0x2000#16 ∧ 0x2000#16 ≤ 0x3FFF#16 ∧ 0x2000#16 ≤ 0x3FFF#16) ∧
    (0x1000#16 ≤ 0x1000#16 ∧ 0x1000#16 ≤ 0x137F#16) ∧ 0x0FFF#16 ≤ 0x0FFF#16 ∧
    (decodeWords 0x4000#16 0#16 0#16).format = .twoOperand ∧ (decodeWords 0xFFFF#16 0#16 0#16).format = .twoOperand ∧
    (decodeWords 0x2000#16 0#16 0#16).format = .jump ∧ (decodeWords 0x3FFF#16 0#16 0#16).format = .jump ∧
    (decodeWords 0x1000#16 0#16 0#16).format = .singleOperand ∧ (decodeWords 0x137F#16 0#16 0#16).format = .singleOperand ∧
    (decodeWords 0x0FFF#16 0#16 0#16).format = .undefined := by
  decide
theorem witness_UndefinedWordsAreExactlyTwoRanges :
    (decodeWords 0x0FFF#16 0#16 0#16).mnemonic = none ∧ (decodeWords 0x1380#16 0#16 0#16).mnemonic = none ∧
    (decodeWords 0x1FFF#16 0#16 0#16).mnemonic = none ∧ (decodeWords 0x1000#16 0#16 0#16).mnemonic = some .rrc ∧
    (decodeWords 0x137F#16 0#16 0#16).mnemonic = some .reti ∧ (decodeWords 0x2000#16 0#16 0#16).mnemonic = some .jne := by
  decide
theorem witness_LengthIsAFunctionOfTheWord :
    (decodeWords 0x4495#16 0#16 0#16).format = .twoOperand ∧ (decodeWords 0x12B0#16 0#16 0#16).format = .singleOperand ∧
    (decodeWords 0x3C00#16 0#16 0#16).format = .jump := by
  decide
theorem witness_AccessorRoundTrip :
    isEven 0xFFFE#16 = true ∧ isEven 0x0000#16 = true := by
  decide
theorem witness_WordAccessFaultsExactlyWhenOdd :
    (0xFFFF#16).getLsbD 0 = true ∧ (0xFFFE#16).getLsbD 0 = false := by
  decide
theorem witness_WordsAreLittleEndian :
    ∃ t, State.reset.writeWord 0xFFFE#16 0xBEEF#16 = .ok t := ⟨_, rfl⟩
theorem witness_StepKeepsMemoryCanonical :
    ∃ t, (start [0x4582#16, 0x0210#16] [(5#4, 0x2143#16)] []).memCanonical ∧
      step (start [0x4582#16, 0x0210#16] [(5#4, 0x2143#16)] []) = .next t := ⟨_, rfl, rfl⟩
theorem witness_StepChangesOnlyReportedBytes :
    let s := start [0x4582#16, 0x0210#16] [(5#4, 0x2143#16)] []
    (∃ t, step s = .next t) ∧ dataWrites s = [{ addr := 0x0210#16, width := .word, value := 0x2143#16 }] ∧
      (∀ d ∈ dataWrites s, 0x0212#16 ≠ d.addr ∧ (d.width = .word → 0x0212#16 ≠ d.addr + 1#16)) := ⟨⟨_, rfl⟩, by decide, by decide⟩
theorem witness_ReportedWritesAreStored :
    let s := start [0x1285#16] [(1#4, 0x0400#16), (5#4, 0xD000#16)] []
    (∃ t, step s = .next t) ∧ s.run = .running ∧ { addr := 0x03FE#16, width := .word, value := 0xC002#16 } ∈ dataWrites s := ⟨⟨_, rfl⟩, by decide, by decide⟩
theorem witness_RegisterWriteReadsBack :
    Reg.cg ≠ Reg.sr ∧ (15#4 : Reg) ≠ Reg.sr ∧ (0#4 : Reg) ≠ 15#4 := by
  decide
theorem witness_FlagWriteChangesOneBit :
    bitV < 16 ∧ (15 : Nat) < 16 ∧ (0 : Nat) ≠ 15 := by
  decide
theorem witness_StorageBitsChangeOnlyByWholeWrite :
    let s := start [0x3C03#16] [(2#4, 0xFFFF#16)] []
    (∃ t, step s = .next t) ∧ ¬ writesSr (s.instrAt s.pc) ∧ storageBit 3 ∧ storageBit 7 ∧ storageBit 9 ∧ storageBit 15 := by
  refine ⟨⟨_, rfl⟩, ?_, by unfold storageBit; decide⟩
  rintro ⟨w, src, m, h, _⟩
  have e : ((start [0x3C03#16] [(2#4, 0xFFFF#16)] []).instrAt (start [0x3C03#16] [(2#4, 0xFFFF#16)] []).pc).shape = .none := by decide
  rw [e] at h
  cases h
theorem witness_StorageBitsHaveNoEffect :
    let s := start [0x5405#16] [(4#4, 1#16)] []
    let s' := s.setReg Reg.sr 0xFEF8#16
    Instr.wf (.add .word (.reg 4#4) (.reg 5#4)) = true ∧ leavesSrAlone (.add .word (.reg 4#4) (.reg 5#4)) ∧
      leavesSrAlone (.call .word (.indexed 2#4 0#16)) ∧ leavesSrAlone (.jeq 0x3FF#10) ∧ sameButStorage s s' ∧ s ≠ s' := by
  refine ⟨by decide, ⟨by decide, by decide⟩, show Src.indexed 2#4 0#16 ≠ Src.reg Reg.sr by decide, trivial, ⟨fun q hq => ?_, rfl, rfl, rfl, fun k hk => ?_⟩, by decide⟩
  · exact (reg_setReg_ne _ _ hq).symm
  · rw [← reg_sr, ← reg_sr, reg_setReg_same]
    unfold storageBit at hk
    by_cases h : k < 16
    · have : k = 0 ∨ k = 1 ∨ k = 2 ∨ k = 8 := by omega
      rcases this with rfl | rfl | rfl | rfl <;> decide
    · rw [BitVec.getLsbD_of_ge _ _ (by omega), BitVec.getLsbD_of_ge _ _ (by omega)]
theorem witness_WholeWriteDrawsReservedBits :
    (Src.wf (.const .minusOne) = true ∧ oddAt .word (srcEA (.const .minusOne) base) = none) ∧
    (Src.wf (.indirect 4#4) = true ∧ oddAt .byte (srcEA (.indirect 4#4) base) = none) := by
  decide
theorem witness_AutoincrementReadsThenMoves :
    ((5#4 : Reg) ≠ Reg.pc ∧ (5#4 : Reg) ≠ Reg.sr ∧ (5#4 : Reg) ≠ Reg.cg) ∧ ((6#4 : Reg) ≠ Reg.pc ∧ (6#4 : Reg) ≠ Reg.sr) ∧
    isEven (base.reg 5#4) = true ∧ isEven (base.reg 4#4) = false ∧ (5#4 : Reg) ≠ 6#4 := by
  decide
theorem witness_IndexedSourceAddress :
    ((0#4 : Reg) ≠ Reg.cg ∧ isEven (base.pc + 2#16 + 0x100#16) = true) ∧
    ((2#4 : Reg) ≠ Reg.cg ∧ isEven (0#16 + 0x300#16) = true) ∧ ((4#4 : Reg) ≠ Reg.cg ∧ isEven (base.reg 4#4 + 1#16) = true) ∧
    (5#4 : Reg) ≠ Reg.pc ∧ (5#4 : Reg) ≠ Reg.sr := by
  decide
theorem witness_DestinationSeesTheSourceSideEffects :
    ((5#4 : Reg) ≠ Reg.pc ∧ (5#4 : Reg) ≠ Reg.sr ∧ (5#4 : Reg) ≠ Reg.cg) ∧ isEven (base.reg 5#4) = true := by
  decide
theorem witness_MovCopiesTheSource :
    readable (.mov .word (.indirect 5#4) (.reg 6#4)) base ∧ readable (.mov .word (.reg 4#4) (.reg Reg.pc)) base ∧
    readable (.mov .byte (.autoinc 4#4) (.reg Reg.sr)) base ∧ readable (.mov .word (.const .one) (.reg Reg.cg)) base ∧
    readable (.mov .word (.imm 1#16) (.indexed 4#4 1#16)) base := by
  unfold readable; decide
theorem witness_AddStoresTheSumAndFlags :
    readable (.add .word (.indirect 5#4) (.reg 6#4)) base ∧ readable (.add .word (.reg 4#4) (.reg Reg.pc)) base ∧
    readable (.add .byte (.autoinc 4#4) (.reg Reg.sr)) base ∧ readable (.add .word (.const .one) (.reg Reg.cg)) base ∧
    readable (.add .word (.imm 1#16) (.indexed 4#4 1#16)) base := by
  unfold readable; decide
theorem witness_CmpSetsTheFlagsOfSubAndWritesNothing :
    readable (.cmp .word (.indirect 5#4) (.reg 6#4)) base ∧ readable (.cmp .word (.reg 4#4) (.reg Reg.pc)) base ∧
    readable (.cmp .byte (.autoinc 4#4) (.reg Reg.sr)) base ∧ readable (.cmp .word (.const .one) (.reg Reg.cg)) base ∧
    readable (.cmp .word (.imm 1#16) (.indexed 4#4 1#16)) base := by
  unfold readable; decide
theorem witness_BisStoresTheOrAndNoFlags :
    readable (.bis .word (.indirect 5#4) (.reg 6#4)) base ∧ readable (.bis .word (.reg 4#4) (.reg Reg.pc)) base ∧
    readable (.bis .byte (.autoinc 4#4) (.reg Reg.sr)) base ∧ readable (.bis .word (.const .one) (.reg Reg.cg)) base ∧
    readable (.bis .word (.imm 1#16) (.indexed 4#4 1#16)) base := by
  unfold readable; decide
theorem witness_XorStoresTheXorAndLogicalFlags :
    readable (.xor .word (.indirect 5#4) (.reg 6#4)) base ∧ readable (.xor .word (.reg 4#4) (.reg Reg.pc)) base ∧
    readable (.xor .byte (.autoinc 4#4) (.reg Reg.sr)) base ∧ readable (.xor .word (.const .one) (.reg Reg.cg)) base ∧
    readable (.xor .word (.imm 1#16) (.indexed 4#4 1#16)) base := by
  unfold readable; decide
theorem witness_SubAndCmpFollowTheSubtractionRule :
    readable (.sub .word (.const .one) (.reg 5#4)) base ∧ (srcValue .word (.const .one) base).toNat ≠ 0 ∧
    readable (.sub .word (.const .zero) (.reg Reg.pc)) base ∧ (srcValue .word (.const .zero) base).toNat = 0 ∧
    readable (.sub .word (.imm 0x8000#16) (.indexed 4#4 1#16)) base ∧
      (srcValue .word (.imm 0x8000#16) base).toNat = 2 ^ (widthBits .word - 1) ∧
    readable (.sub .byte (.imm 0x80#16) (.reg Reg.sr)) base ∧
      (srcValue .byte (.imm 0x80#16) base).toNat = 2 ^ (widthBits .byte - 1) := by
  unfold readable; decide
theorem witness_ReservedBitsAreZeroBeforeTheFirstDraw :
    let s := start [0x3C03#16] [(2#4, 0x01FF#16)] []
    (s.draws = 0 → s.srReserved = 0#7) ∧ s.draws = 0 ∧ ∃ t, step s = .next t ∧ t.draws = 0 := ⟨by decide, by decide, _, rfl, by decide⟩
/-- One instruction of each kind the frame names, readable, with its next state. -/
theorem witness_TwoOperandFrame :
    (∃ t, executesTwo .mov ∧ readable (.mov .word (.autoinc 5#4) (.indexed 6#4 0#16)) base ∧
      exec (.mov .word (.autoinc 5#4) (.indexed 6#4 0#16)) base = .next t ∧ ¬ writesReg .mov (.indexed 6#4 0#16) Reg.sr ∧
      dstEA .word (.autoinc 5#4) (.indexed 6#4 0#16) base = some 0x0400#16) ∧
    (∃ t, executesTwo .bis ∧ readable (.bis .word (.reg 4#4) (.reg 5#4)) base ∧
      exec (.bis .word (.reg 4#4) (.reg 5#4)) base = .next t ∧ ¬ writesReg .bis (.reg 5#4) Reg.sr ∧
      dstEA .word (.reg 4#4) (.reg 5#4) base = none) ∧
    (∃ t, executesTwo .cmp ∧ readable (.cmp .byte (.reg 4#4) (.indexed 4#4 0#16)) base ∧
      exec (.cmp .byte (.reg 4#4) (.indexed 4#4 0#16)) base = .next t ∧ ¬ writesReg .cmp (.indexed 4#4 0#16) Reg.sr) := by
  refine ⟨⟨_, .inl rfl, by unfold readable; decide, rfl, by unfold writesReg; decide, by decide⟩,
    ⟨_, by simp [executesTwo], by unfold readable; decide, rfl, by unfold writesReg; decide, by decide⟩,
    ⟨_, by simp [executesTwo], by unfold readable; decide, rfl, by unfold writesReg; decide⟩⟩
theorem witness_ByteResultClearsTheHighByte :
    ∃ t, (Instr.mov .byte (.reg 4#4) (.reg 5#4)).shape = .two .byte (.reg 4#4) (.reg 5#4) ∧
      (Instr.mov .byte (.reg 4#4) (.reg 5#4)).mnemonic = some .mov ∧ executesTwo .mov ∧ Mnemonic.mov ≠ .cmp ∧
      (5#4 : Reg) ≠ Reg.pc ∧ (5#4 : Reg) ≠ Reg.sr ∧ readable (.mov .byte (.reg 4#4) (.reg 5#4)) base ∧
      exec (.mov .byte (.reg 4#4) (.reg 5#4)) base = .next t := ⟨_, rfl, rfl, .inl rfl, by decide, by decide, by decide, by unfold readable; decide, rfl⟩
theorem witness_ResultIntoPcIsAdvanced :
    (Src.wf (.const .four) = true ∧ oddAt .word (srcEA (.const .four) base) = none) ∧
    (Src.wf (.indirect 4#4) = true ∧ oddAt .byte (srcEA (.indirect 4#4) base) = none) := by
  decide
theorem witness_UnimplementedTwoOperandsRaise :
    readable (.addc .word (.reg 4#4) (.reg 5#4)) base ∧ readable (.subc .word (.reg 4#4) (.reg 5#4)) base ∧
    readable (.dadd .word (.autoinc 5#4) (.reg 5#4)) base ∧ readable (.bit .byte (.reg 4#4) (.reg 5#4)) base ∧
    readable (.bic .word (.const .one) (.reg Reg.sr)) base ∧ readable (.and .word (.reg 4#4) (.indexed 5#4 2#16)) base := by
  unfold readable; decide
theorem witness_UnimplementedSingleOperandsRaise :
    readable (.rrc .word (.reg 5#4)) base ∧ readable (.swpb .word (.reg 5#4)) base ∧ readable (.rra .word (.indirect 5#4)) base ∧
    readable (.sxt .word (.reg 5#4)) base ∧ readable (.push .word (.imm 1#16)) base ∧ readable (.reti .byte (.autoinc 4#4)) base := by
  unfold readable; decide
theorem witness_CallPushesAndTransfers :
    (readable (.call .word (.imm 0xD000#16)) baseEven ∧ isEven (callPushAddr .word (.imm 0xD000#16) baseEven) = true) ∧
    (readable (.call .byte (.autoinc 1#4)) base ∧ isEven (callPushAddr .byte (.autoinc 1#4) base) = true) := by
  unfold readable; decide
theorem witness_CallPushAtOddAddressFaults :
    readable (.call .word (.reg 5#4)) base ∧ isEven (callPushAddr .word (.reg 5#4) base) = false := by
  unfold readable; decide
theorem witness_MisalignedOperandFaults :
    (Instr.wf (.and .word (.indirect 4#4) (.reg 5#4)) = true ∧
      oddOperand (.and .word (.indirect 4#4) (.reg 5#4)) base = some 0x0301#16) ∧
    (Instr.wf (.mov .word (.reg 4#4) (.indexed 5#4 1#16)) = true ∧
      oddOperand (.mov .word (.reg 4#4) (.indexed 5#4 1#16)) base = some 0x0301#16) := by
  decide
theorem witness_StepRunsTheDecodedInstruction :
    base.run = .running ∧ Config.ioLimit < base.pc ∧ isEven base.pc = true ∧
    decode (bytesAt base base.pc) = .ok (.add .word (.indexed 4#4 0x10#16) (.indexed 5#4 0x20#16), []) := by
  refine ⟨by decide, by decide, by decide, rfl⟩
theorem witness_FetchFaults :
    ((State.reset.setPc 0x01FF#16).run = .running ∧ (State.reset.setPc 0x01FF#16).pc ≤ 0x01FF#16) ∧
    ((State.reset.setPc 0x0201#16).run = .running ∧ 0x01FF#16 < (State.reset.setPc 0x0201#16).pc ∧
      isEven (State.reset.setPc 0x0201#16).pc = false) := by
  decide
theorem witness_DeadBlockStaysAsItIs : (State.reset.afterStep).run = .dead State.reset.peripheralRecord := by decide
theorem witness_StepFaultsExactlyByPriority :
    (start [0x5405#16] [] []).run = .running ∧ stepFault (start [0x5405#16] [] []) = none ∧ State.reset.run = .running ∧
    stepFault State.reset = some State.reset.peripheralRecord := by
  decide
theorem witness_FaultCommitsNothing :
    ∃ t x, (start [0xA435#16] [(4#4, 0x0300#16)] []).run = .running ∧
      step (start [0xA435#16] [(4#4, 0x0300#16)] []) = .next t ∧ t.run = .dead x := ⟨_, _, rfl, rfl, rfl⟩
/-- A record with a word and one without, and an alignment fault. -/
theorem witness_FaultRecordCarriesTheContext :
    (∃ t x, State.reset.run = .running ∧ step State.reset = .next t ∧ t.run = .dead x ∧ x.word = none) ∧
    (∃ t x, (start [0xF425#16] [(4#4, 0x0301#16)] []).run = .running ∧
      step (start [0xF425#16] [(4#4, 0x0301#16)] []) = .next t ∧ t.run = .dead x ∧ x.kind = .alignmentFault ∧ x.word ≠ none) ∧
    (∃ t x, (start [0x6405#16] [] []).run = .running ∧ step (start [0x6405#16] [] []) = .next t ∧ t.run = .dead x ∧
      x.kind = .unimplementedOpcode) ∧
    (∃ t x, (start [0x0000#16] [] []).run = .running ∧ step (start [0x0000#16] [] []) = .next t ∧ t.run = .dead x ∧
      x.kind = .undefinedOpcode) :=
  ⟨⟨_, _, rfl, rfl, rfl, rfl⟩, ⟨_, _, rfl, rfl, rfl, rfl, by decide⟩, ⟨_, _, rfl, rfl, rfl, rfl⟩, ⟨_, _, rfl, rfl, rfl, rfl⟩⟩
theorem witness_PcStaysEvenUnlessWritten :
    ∃ t, (start [0x3C03#16] [] []).run = .running ∧ step (start [0x3C03#16] [] []) = .next t ∧ t.run = .running ∧
      ¬ writesPc ((start [0x3C03#16] [] []).instrAt (start [0x3C03#16] [] []).pc) := by
  refine ⟨_, rfl, rfl, rfl, ?_⟩
  have e : (start [0x3C03#16] [] []).instrAt (start [0x3C03#16] [] []).pc = .jmp 3#10 := by decide
  rw [e]
  rintro (⟨w, src, m, h, _⟩ | ⟨w, op, h⟩) <;> cases h
theorem witness_FaultFreeStepReportsTheInstruction :
    ∃ t, (start [0x4335#16] [] []).run = .running ∧ step (start [0x4335#16] [] []) = .next t ∧ t.run = .running :=
  ⟨_, rfl, rfl, rfl⟩
/-- Two segments that meet at an address without sharing one, one of them at the top of memory, and one of length 0. -/
theorem witness_LaunchLoadsSegmentsAndVector :
    let image := [0x42#8, 0xF8#8, 0x01#8]
    let segments := [{ offset := 0, address := 0xFFFE, length := 2 }, { offset := 2, address := 0xFFFD, length := 1 },
      { offset := 0, address := 0xFFFE, length := 0 : Segment }]
    segments.all (Segment.inRange image) = true ∧ segmentsDisjoint segments = true := by decide
theorem witness_InvalidLaunchIsRefused :
    (∃ g ∈ [{ offset := 0, address := 0xFFFF, length := 2 : Segment }],
      0x10000 < g.address + g.length ∨ ([1#8, 2#8] : List Byte).length < g.offset + g.length) ∧
    (let g : Segment := { offset := 0, address := 0xFFFE, length := 2 }
     let h : Segment := { offset := 1, address := 0xFFFF, length := 1 }
     (∀ k ∈ [g, h], k.address + k.length ≤ 0x10000 ∧ k.offset + k.length ≤ ([1#8, 2#8] : List Byte).length) ∧
     [g, h].Sublist [g, h] ∧ covers g 0xFFFF ∧ covers h 0xFFFF) := by
  refine ⟨⟨_, List.mem_singleton.mpr rfl, .inl (by decide)⟩, by decide, List.Sublist.refl _, ?_⟩
  unfold covers; decide
theorem witness_SegmentOrderDoesNotMatter :
    let image := [0x42#8, 0xF8#8, 0x01#8]
    let g : Segment := { offset := 0, address := 0xFFFE, length := 2 }
    let h : Segment := { offset := 2, address := 0xC000, length := 1 }
    [g, h].Perm [h, g] ∧ [g, h].all (Segment.inRange image) = true ∧ segmentsDisjoint [g, h] = true :=
  ⟨List.Perm.swap _ _ _, by decide, by decide⟩

end Sys2Proof.Tests
end

section
/-! PROOF. The memory accessors (spec/20_memory.md R53 to R58): what a word access answers at an even and at an odd address,
and the two obligations about them. -/

namespace Sys2Proof.Machine

/-! ## A word access by the alignment of its address -/

theorem isEven_eq_true_iff {a : Word} : isEven a = true ↔ a.getLsbD 0 = false := beq_iff_eq

theorem isEven_eq_false_iff {a : Word} : isEven a = false ↔ a.getLsbD 0 = true := by
  rw [← Bool.not_eq_true, isEven_eq_true_iff, Bool.not_eq_false]

theorem readWord_of_even {a : Word} (s : State) (h : isEven a = true) : s.readWord a = .ok (s.wordAt a) := if_pos h

theorem readWord_of_odd {a : Word} (s : State) (h : isEven a = false) : s.readWord a = .error a :=
  if_neg (Bool.not_eq_true _ ▸ h)

theorem writeWord_of_even {a : Word} (s : State) (v : Word) (h : isEven a = true) :
    s.writeWord a v = .ok (s.setWordAt a v) := if_pos h

theorem writeWord_of_odd {a : Word} (s : State) (v : Word) (h : isEven a = false) : s.writeWord a v = .error a :=
  if_neg (Bool.not_eq_true _ ▸ h)

/-! ## The bytes that a write leaves -/

@[simp] theorem readByte_writeByte_same (s : State) (a : Word) (v : Byte) : (s.writeByte a v).readByte a = v := by
  rw [readByte_writeByte, if_pos rfl]

@[simp] theorem readByte_setWordAt_low (s : State) (a v : Word) :
    (s.setWordAt a v).readByte a = v.extractLsb' 0 8 := by
  rw [readByte_setWordAt, if_neg (add_one_ne_self a), if_pos rfl]

@[simp] theorem readByte_setWordAt_high (s : State) (a v : Word) :
    (s.setWordAt a v).readByte (a + 1#16) = v.extractLsb' 8 8 := by
  rw [readByte_setWordAt, if_pos rfl]

/-! ## The obligations -/

/-- Settles O8: an even address takes both word accesses, and a word stored reads back byte order and all. -/
theorem accessorRoundTrip : Obligations.AccessorRoundTrip := by
  refine ⟨fun s a v he => ⟨s.setWordAt a v, writeWord_of_even s v he, ?_⟩, readByte_writeByte_same⟩
  rw [readWord_of_even _ he, wordAt_setWordAt]

/-- Settles O9, by the alignment of the address; at an even one the word read is the high byte over the low byte by definition. -/
theorem wordAccessFaultsExactlyWhenOdd : Obligations.WordAccessFaultsExactlyWhenOdd := by
  intro s a v
  constructor
  · intro hodd
    have ho : isEven a = false := isEven_eq_false_iff.mpr hodd
    exact ⟨readWord_of_odd s ho, writeWord_of_odd s v ho⟩
  · intro heven
    have he : isEven a = true := isEven_eq_true_iff.mpr heven
    exact ⟨readWord_of_even s he, s.setWordAt a v, writeWord_of_even s v he, readByte_setWordAt_low s a v,
      readByte_setWordAt_high s a v⟩

end Sys2Proof.Machine
end

section
/-! PROOF. The encoding (spec/30_encoding.md R84 to R97). What a word is read as is well formed and has that word as its
instruction word; so a fact about every well-formed instruction's word, its number of extension words (R94, R96) or whether a
mnemonic covers it (R97), is a fact about every word's reading. -/

namespace Sys2Proof

/-! ## A bit field over the bits below it -/

theorem toNat_append_eq_add {n m : Nat} (high : BitVec n) (low : BitVec m) :
    (high ++ low).toNat = high.toNat * 2 ^ m + low.toNat := by
  rw [BitVec.toNat_append, ← Nat.shiftLeft_add_eq_or_of_lt low.isLt, Nat.shiftLeft_eq]

theorem toNat_field_append {w : Word} {n lo : Nat} {high : BitVec n} (hn : n + lo = 16) (hf : field w lo n = high) :
    (high ++ field w 0 lo).toNat = w.toNat := by
  have hw : w.toNat < 2 ^ lo * 2 ^ n := by rw [← Nat.pow_add, Nat.add_comm, hn]; exact w.isLt
  rw [toNat_append_eq_add, ← hf, toNat_field, toNat_field, Nat.mod_eq_of_lt (Nat.div_lt_of_lt_mul hw), pow_zero,
    Nat.div_one, Nat.div_add_mod']

theorem field_eq_iff (w : Word) (lo n k : Nat) : field w lo n = BitVec.ofNat n k ↔ w.toNat / 2 ^ lo % 2 ^ n = k % 2 ^ n := by
  rw [← BitVec.toNat_inj, toNat_field, BitVec.toNat_ofNat]

theorem le_field_iff (w : Word) (lo n k : Nat) : BitVec.ofNat n k ≤ field w lo n ↔ k % 2 ^ n ≤ w.toNat / 2 ^ lo % 2 ^ n := by
  rw [BitVec.le_def, toNat_field, BitVec.toNat_ofNat]

/-! ## What a word is read as has that word as its instruction word (R84 to R88) -/

theorem twoOperandWord_of_op {w : Word} {op : BitVec 4} (h : field w 12 4 = op) (x1 x2 : Word) :
    twoOperandWord op (widthOfBit (field w 6 1)) (twoOperandSrc w x1) (twoOperandDst w x1 x2) = w :=
  h ▸ word_of_two w x1 x2

theorem singleOperandWord_of_op {w : Word} {op : BitVec 9} (h : field w 7 9 = op) (x1 : Word) :
    singleOperandWord op (widthOfBit (field w 6 1)) (decodeSrc (field w 0 4) (field w 4 2) x1) = w :=
  h ▸ word_of_one w x1

theorem jumpWord_of_cond {w : Word} {cond : BitVec 3} (h : field w 13 3 = 0b001#3) (hc : field w 10 3 = cond) :
    jumpWord cond (field w 0 10) = w := by
  rw [jumpWord, ← h, ← hc, jump_fields]

/-- The two rows above 0x13FF tell their words apart by bit 11 (R87). -/
theorem word_above_1380 {w : Word} (h : field w 12 4 = 0x1#4) (hop : 0x028#9 ≤ field w 7 9) :
    (if field w 11 1 = 1#1 then Instr.undefined1800 (field w 0 11) else Instr.undefined1400 (field w 0 10)).word = w := by
  rw [field_eq_iff] at h
  rw [le_field_iff] at hop
  split <;> rename_i hb <;> rw [field_eq_iff] at hb
  · have hf : field w 11 5 = 0b00011#5 := by rw [field_eq_iff]; omega
    exact BitVec.eq_of_toNat_eq (toNat_field_append rfl hf)
  · have hf : field w 10 6 = 0b000101#6 := by rw [field_eq_iff]; omega
    exact BitVec.eq_of_toNat_eq (toNat_field_append rfl hf)

theorem word_decodeSingle {w : Word} (x1 : Word) (h : field w 12 4 = 0x1#4) : (decodeSingle w x1).word = w := by
  unfold decodeSingle
  split <;> rename_i hop
  case h_8 => exact BitVec.eq_of_toNat_eq (toNat_field_append rfl hop)
  case h_9 =>
    have hop : 0x028#9 ≤ field w 7 9 := by
      simp only [imp_false, field_eq_iff, le_field_iff] at *
      omega
    exact word_above_1380 h hop
  all_goals exact singleOperandWord_of_op hop x1

theorem word_decodeJump {w : Word} (h : field w 13 3 = 0b001#3) : (decodeJump w).word = w := by
  unfold decodeJump
  split <;> rename_i hc <;> exact jumpWord_of_cond h hc

theorem word_decodeWords (w x1 x2 : Word) : (decodeWords w x1 x2).word = w := by
  unfold decodeWords
  split <;> rename_i h
  case h_1 => exact word_decodeSingle x1 h
  case h_2 | h_3 =>
    have htop : field w 13 3 = 0b001#3 := by
      rw [field_eq_iff] at h ⊢
      omega
    exact word_decodeJump htop
  case h_16 =>
    have hf : field w 12 4 = 0x0#4 := by
      simp only [imp_false, field_eq_iff] at *
      omega
    exact BitVec.eq_of_toNat_eq (toNat_field_append rfl hf)
  all_goals exact twoOperandWord_of_op h x1 x2

/-! ## It is well formed (R90, R91) -/

theorem wf_decodeSingle (w x1 : Word) : (decodeSingle w x1).wf = true := by
  unfold decodeSingle
  split
  case h_8 => rfl
  case h_9 => split <;> rfl
  all_goals exact decodeSrc_wf _ _ _

theorem wf_decodeJump (w : Word) : (decodeJump w).wf = true := by
  unfold decodeJump
  split <;> rfl

theorem wf_decodeWords (w x1 x2 : Word) : (decodeWords w x1 x2).wf = true := by
  unfold decodeWords
  split
  case h_1 => exact wf_decodeSingle w x1
  case h_2 | h_3 => exact wf_decodeJump w
  case h_16 => rfl
  all_goals exact Bool.and_eq_true_iff.mpr ⟨decodeSrc_wf _ _ _, decodeDst_wf _ _ _⟩

/-! ## The undefined ranges (R97) -/

/-- The two ranges of R97. -/
def UndefinedRange (w : Word) : Prop := w ≤ 0x0FFF#16 ∨ (0x1380#16 ≤ w ∧ w ≤ 0x1FFF#16)

theorem undefinedRange_iff_toNat (w : Word) :
    UndefinedRange w ↔ w.toNat ≤ 0x0FFF ∨ (0x1380 ≤ w.toNat ∧ w.toNat ≤ 0x1FFF) := Iff.rfl

/-- The two ranges by the fields that R84 and R87 look at. -/
theorem undefinedRange_iff_fields (w : Word) :
    UndefinedRange w ↔ field w 12 4 = 0x0#4 ∨ (field w 12 4 = 0x1#4 ∧ 0x027#9 ≤ field w 7 9) := by
  rw [undefinedRange_iff_toNat]
  rw [field_eq_iff, field_eq_iff, le_field_iff]
  have := w.isLt
  omega

theorem not_undefinedRange_twoOperandWord {op : BitVec 4} (w : Width) (src : Src) (dst : Dst) (h : 0x4#4 ≤ op) :
    ¬ UndefinedRange (twoOperandWord op w src dst) := by
  rw [undefinedRange_iff_fields, two_op]
  rintro (rfl | ⟨rfl, -⟩) <;> exact absurd h (by decide)

theorem not_undefinedRange_singleOperandWord {op : BitVec 9} (w : Width) (src : Src) (h : op.extractLsb' 5 4 = 0x1#4)
    (hop : op ≤ 0x026#9) : ¬ UndefinedRange (singleOperandWord op w src) := by
  rw [undefinedRange_iff_fields, one_nibble, one_op, h]
  rintro (h0 | ⟨-, h27⟩)
  · exact absurd h0 (by decide)
  · exact absurd (BitVec.le_trans h27 hop) (by decide)

theorem not_undefinedRange_jumpWord (cond : BitVec 3) (off : BitVec 10) : ¬ UndefinedRange (jumpWord cond off) := by
  rw [undefinedRange_iff_fields, jump_nibble]
  have hne : ∀ b : BitVec 1, 0b001#3 ++ b ≠ 0x0#4 ∧ 0b001#3 ++ b ≠ 0x1#4 := by decide
  obtain ⟨h0, h1⟩ := hne (cond.extractLsb' 2 1)
  exact not_or.mpr ⟨h0, fun h => h1 h.1⟩

/-- A row of the undefined words fixes the high bits: its words run from `high` over zeros to `high` over ones. -/
theorem undefinedRange_of_high {w : Word} {n m : Nat} (high : BitVec n) (low : BitVec m) (hw : w.toNat = (high ++ low).toNat)
    (h : (high.toNat + 1) * 2 ^ m ≤ 0x1000 ∨ (0x1380 ≤ high.toNat * 2 ^ m ∧ (high.toNat + 1) * 2 ^ m ≤ 0x2000)) :
    UndefinedRange w := by
  rw [undefinedRange_iff_toNat, hw, toNat_append_eq_add]
  rw [Nat.succ_mul] at h
  have := low.isLt
  omega

theorem mnemonic_eq_none_iff (i : Instr) : i.mnemonic = none ↔ UndefinedRange i.word := by
  cases i with
  | mov w src dst | add w src dst | addc w src dst | subc w src dst | sub w src dst | cmp w src dst
  | dadd w src dst | bit w src dst | bic w src dst | bis w src dst | xor w src dst | and w src dst =>
    exact iff_of_false (Option.some_ne_none _) (not_undefinedRange_twoOperandWord w src dst (by decide))
  | rrc w op | swpb w op | rra w op | sxt w op | push w op | call w op | reti w op =>
    exact iff_of_false (Option.some_ne_none _) (not_undefinedRange_singleOperandWord w op (by decide) (by decide))
  | jne off | jeq off | jnc off | jc off | jn off | jge off | jl off | jmp off =>
    exact iff_of_false (Option.some_ne_none _) (not_undefinedRange_jumpWord _ off)
  | undefined0 low => exact iff_of_true rfl (undefinedRange_of_high 0x0#4 low rfl (by decide))
  | undefined1380 low => exact iff_of_true rfl (undefinedRange_of_high 0x027#9 low rfl (by decide))
  | undefined1400 low => exact iff_of_true rfl (undefinedRange_of_high 0b000101#6 low rfl (by decide))
  | undefined1800 low => exact iff_of_true rfl (undefinedRange_of_high 0b00011#5 low rfl (by decide))

/-! ## Extension words (R94, R96) -/

theorem extCount_of_undefinedRange {w : Word} (h : UndefinedRange w) : extCount w = 0 := by
  rcases (undefinedRange_iff_fields w).mp h with h0 | ⟨h1, hop⟩
  · simp [extCount, h0]
  · have hop' : ¬ field w 7 9 ≤ 0x026#9 := fun h => absurd (BitVec.le_trans hop h) (by decide)
    simp [extCount, h1, hop']

theorem extCount_word {i : Instr} (hwf : i.wf = true) : extCount i.word = i.ext.length := by
  cases i with
  | mov w src dst | add w src dst | addc w src dst | subc w src dst | sub w src dst | cmp w src dst
  | dadd w src dst | bit w src dst | bic w src dst | bis w src dst | xor w src dst | and w src dst =>
    rw [Instr.ext, Instr.shape, List.length_append]
    exact extCount_two _ w dst (by decide) (Bool.and_eq_true_iff.mp hwf).1
  | rrc w op | swpb w op | rra w op | sxt w op | push w op | call w op | reti w op =>
    exact extCount_one _ w (by decide) (by decide) hwf
  | jne off | jeq off | jnc off | jc off | jn off | jge off | jl off | jmp off => exact extCount_jump _ off
  | undefined0 | undefined1380 | undefined1400 | undefined1800 =>
    exact extCount_of_undefinedRange ((mnemonic_eq_none_iff _).mp rfl)

theorem length_ext_le_of_twoOperand {i : Instr} (h : i.format = .twoOperand) : i.ext.length ≤ 2 := by
  cases i with
  | mov w src dst | add w src dst | addc w src dst | subc w src dst | sub w src dst | cmp w src dst
  | dadd w src dst | bit w src dst | bic w src dst | bis w src dst | xor w src dst | and w src dst =>
    rw [Instr.ext, Instr.shape, List.length_append]
    exact Nat.add_le_add (length_ext_src_le src) (length_ext_dst_le dst)
  | _ => cases h

theorem length_ext_le_of_singleOperand {i : Instr} (h : i.format = .singleOperand) : i.ext.length ≤ 1 := by
  cases i with
  | rrc w op | swpb w op | rra w op | sxt w op | push w op | call w op | reti w op => exact length_ext_src_le op
  | _ => cases h

theorem length_ext_of_jump {i : Instr} (h : i.format = .jump) : i.ext.length = 0 := by
  cases i with
  | jne off | jeq off | jnc off | jc off | jn off | jge off | jl off | jmp off => rfl
  | _ => cases h

/-! ## The constant generator (R92) -/

theorem srcExtCount_constant (c : Constant) : srcExtCount c.regField c.asField = 0 :=
  srcExtCount_fields (src := .const c) rfl

theorem decodeSrc_constant (c : Constant) (x : Word) : decodeSrc c.regField c.asField x = .const c :=
  decodeSrc_fields (src := .const c) rfl [x] x

end Sys2Proof

namespace Sys2Proof.Machine

open Sys2Proof.Claims

theorem exec_of_mnemonic_eq_none {i : Instr} (h : i.mnemonic = none) (s : State) :
    exec i s = .next (deadWith s .undefinedOpcode (some i.word) none none) := by
  cases i with
  | undefined0 | undefined1380 | undefined1400 | undefined1800 => rfl
  | _ => cases h

/-- A cell of the constant generator takes no extension word, leaves the state and fires (R92, R128). -/
theorem constantCell_fires (c : Constant) (w : Width) (x : Word) (s : State) :
    srcExtCount c.regField c.asField = 0 ∧ resolveSrc w (decodeSrc c.regField c.asField x) s =
      .ok { state := s, val := maskW w c.literal, target := .none, cg := { fired := true, literal := maskW w c.literal } } := by
  rw [decodeSrc_constant]
  exact ⟨srcExtCount_constant c, rfl⟩

/-! ## The obligations -/

/-- Settles O3: the word is that of the instruction it is read as, and an instruction's word lies in the ranges of R97 exactly
when it has no mnemonic. -/
theorem undefinedWordsAreExactlyTwoRanges : Obligations.UndefinedWordsAreExactlyTwoRanges := by
  intro w x1 x2 s
  have hranges := mnemonic_eq_none_iff (decodeWords w x1 x2)
  have hdies := fun h => exec_of_mnemonic_eq_none (i := decodeWords w x1 x2) h s
  rw [word_decodeWords] at hranges hdies
  exact ⟨hranges, hdies⟩

/-- Settles O5: `extCount` of the word of a well-formed instruction is its number of extension words, and every word is read as
a well-formed instruction with that word. -/
theorem lengthIsAFunctionOfTheWord : Obligations.LengthIsAFunctionOfTheWord := by
  intro w x1 x2
  have hext : extCount w = (decodeWords w x1 x2).ext.length := by
    rw [← extCount_word (wf_decodeWords w x1 x2), word_decodeWords]
  rw [hext]
  exact ⟨rfl, length_ext_le_of_twoOperand, length_ext_le_of_singleOperand, length_ext_of_jump⟩

/-- Settles O6, cell by cell. -/
theorem constantGeneratorTable : Obligations.ConstantGeneratorTable := by
  intro w x s
  exact ⟨constantCell_fires .four w x s, constantCell_fires .eight w x s, constantCell_fires .zero w x s,
    constantCell_fires .one w x s, constantCell_fires .two w x s, constantCell_fires .minusOne w x s, by decide, rfl, rfl⟩

end Sys2Proof.Machine
end

section
/-! PROOF. The end state of a two-operand instruction, field by field (spec/41_execution_engine.md R150, R156, R158, R162, R164):
what WriteBack puts where, over the operands' closed forms, and what UpdateFlags and Advance then leave of it. -/

namespace Sys2Proof.Machine

open Sys2Proof.Claims

/-! ## The pending state after WriteBack -/

/-- The state WriteBack leaves once the operands resolved (R156): what UpdateFlags and Advance of `twoResult` work on. -/
def writtenBack (w : Width) (src : Src) (dst : Dst) (handler : Operands → HandlerResult) (s : State) : State :=
  placeResult w (twoTarget w src dst s) (handler (twoOperands w src dst s)).result (twoState w src dst s)

section

variable {w : Width} {src : Src} {dst : Dst} {handler : Operands → HandlerResult} {s : State} {r : Word}

theorem twoResult_eq_writtenBack : twoResult w src dst handler s =
    ((writtenBack w src dst handler s).updateFlagsOpt (handler (twoOperands w src dst s)).flags).advance
      (handler (twoOperands w src dst s)).suppressAdvance := rfl

theorem reg_writtenBack_ne {q : Reg} (h : (handler (twoOperands w src dst s)).result = none ∨ dst ≠ .reg q) :
    (writtenBack w src dst handler s).reg q = (twoState w src dst s).reg q :=
  reg_placeResult_ne _ _ _ _ (h.imp_right (mt eq_reg_of_twoTarget))

theorem writtenBack_reg {d : Reg} (h : (handler (twoOperands w src (.reg d) s)).result = some r) :
    writtenBack w src (.reg d) handler s = (twoState w src (.reg d) s).writeReg d (maskW w r) := by
  rw [writtenBack, h]
  rfl

theorem writtenBack_mem {ea : Word} (hea : dstEA w src dst s = some ea)
    (h : (handler (twoOperands w src dst s)).result = some r) :
    writtenBack w src dst handler s = storeAt w (twoState w src dst s) ea r := by
  rw [writtenBack, h]
  cases dst with
  | reg d => cases hea
  | indexed d x => cases hea; rfl

/-! ## UpdateFlags and Advance -/

theorem flagsAre_updateFlags (t : State) (f : FlagValues) : flagsAre (t.updateFlags f) f.c f.z f.n f.v :=
  ⟨getLsbD_sr_updateFlags t f bitC, getLsbD_sr_updateFlags t f bitZ, getLsbD_sr_updateFlags t f bitN,
    getLsbD_sr_updateFlags t f bitV⟩

theorem flagsAre_advance (t : State) (b c z n v : Bool) : flagsAre (t.advance b) c z n v ↔ flagsAre t c z n v := by
  simp only [flagsAre, State.flagC, State.flagZ, State.flagN, State.flagV, State.srBit, sr_advance]

theorem pc_twoResult (hadv : (handler (twoOperands w src dst s)).suppressAdvance = false) :
    (twoResult w src dst handler s).pc = (writtenBack w src dst handler s).pc + 2#16 := by
  rw [twoResult_eq_writtenBack, hadv, advance_false, pc_bumpPc, ← reg_pc, reg_updateFlagsOpt_ne _ _ (by decide), reg_pc]

theorem reg_twoResult_ne {q : Reg} (hpc : q ≠ Reg.pc) (hsr : q ≠ Reg.sr) :
    (twoResult w src dst handler s).reg q = (writtenBack w src dst handler s).reg q := by
  rw [twoResult_eq_writtenBack, reg_advance, if_neg (fun h => hpc h.1), reg_updateFlagsOpt_ne _ _ hsr]

theorem getLsbD_sr_twoResult {k : Nat} (h : 3 ≤ k) (h8 : k ≠ 8) :
    (twoResult w src dst handler s).sr.getLsbD k = (writtenBack w src dst handler s).sr.getLsbD k := by
  rw [twoResult_eq_writtenBack, sr_advance, getLsbD_sr_updateFlagsOpt_ne _ _ h h8]

theorem valueAt_twoResult (a : Word) :
    (twoResult w src dst handler s).valueAt w a = (writtenBack w src dst handler s).valueAt w a :=
  valueAt_congr (mem_twoResult w src dst handler s) w a

theorem flagsAre_twoResult {f : FlagValues} (h : (handler (twoOperands w src dst s)).flags = some f) :
    flagsAre (twoResult w src dst handler s) f.c f.z f.n f.v := by
  rw [twoResult_eq_writtenBack, h, flagsAre_advance]
  exact flagsAre_updateFlags _ f

/-! ## Where pc ends -/

theorem nextPc_of_shape_two {i : Instr} (hi : i.shape = .two w src dst) :
    nextPc i s = s.pc + extBytes (src.ext ++ dst.ext) + 2#16 := by
  simp only [nextPc, Instr.length, Instr.ext, hi, extBytes, Nat.mul_add, BitVec.ofNat_add]
  rw [BitVec.add_comm (BitVec.ofNat 16 (2 * 1)), BitVec.add_assoc]

/-- An instruction that writes no result to pc ends past its words (R162). -/
theorem pc_twoResult_past {i : Instr} (hi : i.shape = .two w src dst) (hwf : src.wf = true)
    (hadv : (handler (twoOperands w src dst s)).suppressAdvance = false)
    (h : (handler (twoOperands w src dst s)).result = none ∨ dst ≠ .reg Reg.pc) :
    (twoResult w src dst handler s).pc = nextPc i s := by
  rw [pc_twoResult hadv, ← reg_pc, reg_writtenBack_ne h, reg_pc, pc_twoState w hwf, nextPc_of_shape_two hi]

/-- A result written to pc is advanced like any other value of it (R164). -/
theorem pc_twoResult_into_pc (hadv : (handler (twoOperands w src (.reg Reg.pc) s)).suppressAdvance = false)
    (h : (handler (twoOperands w src (.reg Reg.pc) s)).result = some r) :
    (twoResult w src (.reg Reg.pc) handler s).pc = maskW w r + 2#16 := by
  rw [pc_twoResult hadv, writtenBack_reg h, ← reg_pc, reg_writeReg_same _ _ (by decide)]

/-! ## The result where it is stored -/

theorem extract_sr_writeSr (t : State) (v : Word) : (t.writeSr v).sr.extractLsb' 3 5 = v.extractLsb' 3 5 := by
  have hlow := congrArg (BitVec.extractLsb' 3 5) (sr_writeSr_low t v)
  rwa [BitVec.extractLsb'_extractLsb'_of_le (by decide), BitVec.extractLsb'_extractLsb'_of_le (by decide)] at hlow

/-- Bits 7:3 of sr are no flags: UpdateFlags leaves what WriteBack put there (R158, R164). -/
theorem extract_sr_twoResult :
    (twoResult w src dst handler s).sr.extractLsb' 3 5 = (writtenBack w src dst handler s).sr.extractLsb' 3 5 := by
  apply BitVec.eq_of_getLsbD_eq
  intro k hk
  rw [BitVec.getLsbD_extractLsb', BitVec.getLsbD_extractLsb', getLsbD_sr_twoResult (by omega) (by omega)]

/-- A handler's w-bit result under its flags, for every kind of destination (R156, R158, R162, R164). -/
theorem resultUnderFlags_twoResult {i : Instr} (hi : i.shape = .two w src dst) (hwf : src.wf = true)
    (hadv : (handler (twoOperands w src dst s)).suppressAdvance = false)
    (h : (handler (twoOperands w src dst s)).result = some r) (hr : maskW w r = r) :
    resultUnderFlags i w src dst s (twoResult w src dst handler s) r := by
  cases dst with
  | reg d =>
    refine ⟨fun hpc hsr => ?_, ?_, fun hpc => pc_twoResult_past hi hwf hadv (.inr (mt Dst.reg.inj hpc)), ?_⟩
    · rw [reg_twoResult_ne hpc hsr, writtenBack_reg h, reg_writeReg_same _ _ hsr, hr]
    · rintro rfl
      rw [pc_twoResult_into_pc hadv h, hr]
    · rintro rfl
      rw [extract_sr_twoResult, writtenBack_reg h, writeReg_sr, extract_sr_writeSr, hr]
  | indexed d x =>
    refine ⟨pc_twoResult_past hi hwf hadv (.inr Dst.noConfusion), fun ea hea => ?_⟩
    rw [valueAt_twoResult, writtenBack_mem hea h, valueAt_storeAt, hr]

end

/-! ## From readable operands -/

theorem runTwo_of_readable {i : Instr} {w : Width} {src : Src} {dst : Dst} {s : State} (hi : i.shape = .two w src dst)
    (h : readable i s) (handler : Operands → HandlerResult) :
    runTwo i w src dst handler s = .next (twoResult w src dst handler s) := by
  obtain ⟨hwf, hodd⟩ := h
  rw [oddOperand, hi] at hodd
  rw [runTwo_eq i w (wf_of_shape_two hi hwf)]
  simp only [hodd]

theorem oddAt_none (w : Width) : oddAt w none = none := by cases w <;> rfl

/-- A register destination is always readable: the source decides. -/
theorem runTwo_into_register {i : Instr} {w : Width} {src : Src} {d : Reg} {s : State} (hwf : src.wf = true)
    (h : oddAt w (srcEA src s) = none) {handler : Operands → HandlerResult} :
    runTwo i w src (.reg d) handler s = .next (twoResult w src (.reg d) handler s) := by
  rw [runTwo_eq i w hwf]
  simp only [h, dstEA, oddAt_none, Option.or_none]

end Sys2Proof.Machine
end

section
/-! PROOF. Arithmetic and logic of the operating width (spec/41_execution_engine.md R157, R160, R161): the handlers' results and
flags as exact arithmetic on the operand values, and the corner cases of subtraction. -/

namespace Sys2Proof.Machine

/-! ## ArithFlags as exact arithmetic (R157) -/

/-- The four flags of the sum of two n-bit numbers (R157). -/
def sumFlags (n a b : Nat) : FlagValues :=
  let r := (a + b) % 2 ^ n
  { c := decide (2 ^ n ≤ a + b)
    z := decide (r = 0)
    n := r.testBit (n - 1)
    v := a.testBit (n - 1) == b.testBit (n - 1) && r.testBit (n - 1) != a.testBit (n - 1) }

theorem mod_widthBits_lt (w : Width) (k : Nat) : k % 2 ^ widthBits w < 2 ^ 16 :=
  (Nat.mod_lt k (Nat.two_pow_pos _)).trans_le (Nat.pow_le_pow_right (by decide) (by cases w <;> decide))

theorem arithFlags_eq (w : Width) (a b : Word) :
    arithFlags w a b =
      (BitVec.ofNat 16 ((a.toNat + b.toNat) % 2 ^ widthBits w), sumFlags (widthBits w) a.toNat b.toNat) := by
  have hr : (BitVec.ofNat 16 ((a.toNat + b.toNat) % 2 ^ widthBits w)).toNat = (a.toNat + b.toNat) % 2 ^ widthBits w :=
    Nat.mod_eq_of_lt (mod_widthBits_lt w _)
  simp only [arithFlags, sumFlags, msbW, ← BitVec.testBit_toNat, hr, Bool.beq_eq_decide_eq, ← BitVec.toNat_inj]
  rfl

theorem ofNat_mod_eq_maskW (w : Width) (k : Nat) :
    BitVec.ofNat 16 (k % 2 ^ widthBits w) = maskW w (BitVec.ofNat 16 k) := by
  apply BitVec.eq_of_toNat_eq
  rw [toNat_maskW, BitVec.toNat_ofNat, BitVec.toNat_ofNat, Nat.mod_eq_of_lt (mod_widthBits_lt w k),
    Nat.mod_mod_of_dvd _ (Nat.pow_dvd_pow 2 (by cases w <;> decide))]

theorem maskW_ofNat_mod (w : Width) (k : Nat) :
    maskW w (BitVec.ofNat 16 (k % 2 ^ widthBits w)) = BitVec.ofNat 16 (k % 2 ^ widthBits w) := by
  rw [ofNat_mod_eq_maskW, maskW_maskW]

/-- The result of ArithFlags is the sum of the operands as words, cut to the width. -/
theorem arithFlags_result (w : Width) (a b : Word) : (arithFlags w a b).1 = maskW w (a + b) := by
  rw [arithFlags_eq, ofNat_mod_eq_maskW, BitVec.ofNat_add, BitVec.ofNat_toNat, BitVec.ofNat_toNat, BitVec.setWidth_eq,
    BitVec.setWidth_eq]

/-! ## Subtraction (R160) -/

theorem toNat_negW (w : Width) {a : Word} (ha : a.toNat < 2 ^ widthBits w) :
    (negW w a).toNat = (2 ^ widthBits w - a.toNat) % 2 ^ widthBits w := by
  rw [negW, toNat_maskW, Nat.mod_eq_of_lt ha, BitVec.toNat_ofNat, Nat.mod_eq_of_lt (mod_widthBits_lt w _)]

/-- Adding the negated source is subtracting it. -/
theorem neg_add_mod {n a : Nat} (b : Nat) (ha : a < 2 ^ n) :
    ((2 ^ n - a) % 2 ^ n + b) % 2 ^ n = (b + 2 ^ n - a) % 2 ^ n := by
  rw [Nat.mod_add_mod, Nat.add_comm, ← Nat.add_sub_assoc ha.le]

theorem maskW_negW_add (w : Width) (a b : Word) : maskW w (negW w a + b) = maskW w (b - a) := by
  apply BitVec.eq_of_toNat_eq
  simp only [toNat_maskW, negW, BitVec.toNat_add, BitVec.toNat_sub, BitVec.toNat_ofNat]
  cases w <;> simp only [widthBits] <;> omega

/-- The four flags of subtracting an n-bit number `a` from `b`: those of adding its negation (R160). -/
def differenceFlags (n a b : Nat) : FlagValues := sumFlags n ((2 ^ n - a) % 2 ^ n) b

/-- C of a subtraction of a nonzero source is "no borrow" (R160). -/
theorem c_differenceFlags {n a b : Nat} (h0 : a ≠ 0) (ha : a < 2 ^ n) : (differenceFlags n a b).c = true ↔ a ≤ b := by
  rw [differenceFlags, sumFlags, Nat.mod_eq_of_lt (by omega), decide_eq_true_iff]
  omega

/-- The corner of R160 at a zero source: its negation is 0, so nothing carries and nothing overflows. -/
theorem differenceFlags_zero {n b : Nat} (hb : b < 2 ^ n) :
    (differenceFlags n 0 b).c = false ∧ (differenceFlags n 0 b).v = false := by
  simp [differenceFlags, sumFlags, Nat.mod_eq_of_lt hb, hb]

/-- The corner of R160 at the most negative source, its own negation: adding it flips the destination's sign. -/
theorem v_differenceFlags_min {n b : Nat} (hn : 0 < n) : (differenceFlags n (2 ^ (n - 1)) b).v = b.testBit (n - 1) := by
  obtain ⟨k, rfl⟩ : ∃ k, n = k + 1 := ⟨n - 1, by omega⟩
  have hneg : (2 ^ (k + 1) - 2 ^ k) % 2 ^ (k + 1) = 2 ^ k := by
    rw [Nat.pow_succ, Nat.mul_two, Nat.add_sub_cancel, Nat.mod_eq_of_lt (Nat.lt_add_of_pos_left (Nat.two_pow_pos k))]
  have hflip : ((2 ^ k + b) % 2 ^ (k + 1)).testBit k = !b.testBit k := by
    rw [Nat.testBit_mod_two_pow, Nat.testBit_two_pow_add_eq, decide_eq_true (Nat.lt_succ_self k), Bool.true_and]
  simp only [differenceFlags, sumFlags, Nat.add_sub_cancel, hneg, hflip, Nat.testBit_two_pow_self]
  cases b.testBit k <;> rfl

/-! ## The bitwise operations (R161) -/

theorem maskW_xor (w : Width) (a b : Word) : maskW w (a ^^^ b) = maskW w a ^^^ maskW w b := by
  cases w
  · rfl
  · simp only [maskW, BitVec.extractLsb'_xor, BitVec.setWidth_xor]

theorem maskW_or (w : Width) (a b : Word) : maskW w (a ||| b) = maskW w a ||| maskW w b := by
  cases w
  · rfl
  · simp only [maskW, BitVec.extractLsb'_or, BitVec.setWidth_or]

theorem logicFlags_eq (w : Width) (r : Word) :
    logicFlags w r =
      { c := decide (r ≠ 0#16), z := decide (r = 0#16), n := r.getLsbD (widthBits w - 1), v := false } := by
  simp only [logicFlags, msbW, bne, Bool.beq_eq_decide_eq, ne_eq, decide_not]

/-! ## What the handlers answer on resolved operands -/

section

variable (w : Width) (src : Src) (dst : Dst) (s : State)

theorem addHandler_twoOperands :
    addHandler w (twoOperands w src dst s) =
      { result := some (BitVec.ofNat 16 (((srcValue w src s).toNat + (dstValue w src dst s).toNat) % 2 ^ widthBits w))
        flags := some (sumFlags (widthBits w) (srcValue w src s).toNat (dstValue w src dst s).toNat)
        suppressAdvance := false } := by
  simp only [addHandler, twoOperands, arithFlags_eq]

theorem subHandler_twoOperands :
    subHandler w (twoOperands w src dst s) =
      { result := some (BitVec.ofNat 16
          (((dstValue w src dst s).toNat + 2 ^ widthBits w - (srcValue w src s).toNat) % 2 ^ widthBits w))
        flags := some (differenceFlags (widthBits w) (srcValue w src s).toNat (dstValue w src dst s).toNat)
        suppressAdvance := false } := by
  simp only [subHandler, twoOperands, arithFlags_eq, toNat_negW w (srcValue_lt w src s), differenceFlags,
    neg_add_mod _ (srcValue_lt w src s)]

theorem cmpHandler_twoOperands :
    cmpHandler w (twoOperands w src dst s) =
      { result := none
        flags := some (differenceFlags (widthBits w) (srcValue w src s).toNat (dstValue w src dst s).toNat)
        suppressAdvance := false } := by
  simp only [cmpHandler, twoOperands, arithFlags_eq, toNat_negW w (srcValue_lt w src s), differenceFlags]

theorem maskW_srcValue_xor :
    maskW w (srcValue w src s ^^^ dstValue w src dst s) = srcValue w src s ^^^ dstValue w src dst s := by
  rw [maskW_xor, maskW_srcValue, maskW_dstValue]

theorem maskW_srcValue_or :
    maskW w (srcValue w src s ||| dstValue w src dst s) = srcValue w src s ||| dstValue w src dst s := by
  rw [maskW_or, maskW_srcValue, maskW_dstValue]

end

end Sys2Proof.Machine
end

section
/-! PROOF. The obligations on ADD, SUB, CMP, XOR and on a result that goes into pc (spec/41_execution_engine.md R157 to R164). -/

namespace Sys2Proof.Machine

open Sys2Proof.Claims

/-- Settles O25: ADD ends in the two-operand result of a handler that answers the exact sum and its flags. -/
theorem addStoresTheSumAndFlags : Obligations.AddStoresTheSumAndFlags := by
  intro w src dst s h
  have hwf := wf_of_shape_two (i := .add w src dst) rfl h.1
  have hh := addHandler_twoOperands w src dst s
  refine ⟨_, runTwo_of_readable rfl h _, run_twoResult _ _ _ _ _, ?_, ?_⟩
  · exact resultUnderFlags_twoResult rfl hwf (by rw [hh]) (by rw [hh]) (maskW_ofNat_mod w _)
  · exact flagsAre_twoResult (f := sumFlags _ _ _) (by rw [hh])

/-- Settles O26: SUB and CMP end in the results of handlers with the same flags, and R160's corners are facts about those. -/
theorem subAndCmpFollowTheSubtractionRule : Obligations.SubAndCmpFollowTheSubtractionRule := by
  intro w src dst s h n a b neg r
  have hwf := wf_of_shape_two (i := .sub w src dst) rfl h.1
  have ha : a < 2 ^ n := srcValue_lt w src s
  have hb : b < 2 ^ n := dstValue_lt w src dst s
  have hsub := subHandler_twoOperands w src dst s
  have ht : flagsAre (twoResult w src dst (subHandler w) s) _ _ _ _ := flagsAre_twoResult (by rw [hsub])
  have hu : flagsAre (twoResult w src dst (cmpHandler w) s) _ _ _ _ :=
    flagsAre_twoResult (by rw [cmpHandler_twoOperands])
  have ⟨hc, hz, hn, hv⟩ := ht
  refine ⟨_, _, runTwo_of_readable rfl h _, runTwo_of_readable (i := .cmp w src dst) rfl h _, run_twoResult _ _ _ _ _,
    resultUnderFlags_twoResult rfl hwf (by rw [hsub]) (by rw [hsub]) (maskW_ofNat_mod w _), ?_, ?_, ?_, ?_, ?_⟩
  · have hr : (neg + b) % 2 ^ n = r := neg_add_mod b ha
    rw [← hr]
    exact ht
  · rwa [hc, hz, hn, hv]
  · intro h0
    rw [hc]
    exact c_differenceFlags h0 ha
  · intro h0
    have hzero := differenceFlags_zero hb
    rw [← h0] at hzero
    rwa [hc, hv]
  · intro hmin
    have hflip := v_differenceFlags_min (n := n) (b := b) (by cases w <;> decide)
    rw [← hmin] at hflip
    rwa [hv]

/-- Settles O29: XOR ends in the two-operand result of a handler that answers a w-bit value under the logical rule. -/
theorem xorStoresTheXorAndLogicalFlags : Obligations.XorStoresTheXorAndLogicalFlags := by
  intro w src dst s h r
  have hwf := wf_of_shape_two (i := .xor w src dst) rfl h.1
  have hflags : (xorHandler w (twoOperands w src dst s)).flags = some _ := congrArg some (logicFlags_eq w r)
  exact ⟨_, runTwo_of_readable rfl h _, run_twoResult _ _ _ _ _,
    resultUnderFlags_twoResult rfl hwf rfl rfl (maskW_srcValue_xor w src dst s), flagsAre_twoResult hflags⟩

/-- Settles O32: the four write their result where the Advance then adds 2 (R164); CMP writes none. -/
theorem resultIntoPcIsAdvanced : Obligations.ResultIntoPcIsAdvanced := by
  intro w src s hwf hsrc b
  have hadd : (addHandler w (twoOperands w src (.reg Reg.pc) s)).result = some (maskW w (srcValue w src s + b)) :=
    congrArg some (arithFlags_result w _ _)
  have hsub : (subHandler w (twoOperands w src (.reg Reg.pc) s)).result = some (maskW w (b - srcValue w src s)) :=
    congrArg some ((arithFlags_result w _ _).trans (maskW_negW_add w _ _))
  have hxor : (xorHandler w (twoOperands w src (.reg Reg.pc) s)).result = some (srcValue w src s ^^^ b) := rfl
  have hbis : (bisHandler (twoOperands w src (.reg Reg.pc) s)).result = some (srcValue w src s ||| b) := rfl
  refine ⟨⟨_, runTwo_into_register hwf hsrc, ?_⟩, ⟨_, runTwo_into_register hwf hsrc, ?_⟩,
    ⟨_, runTwo_into_register hwf hsrc, ?_⟩, ⟨_, runTwo_into_register hwf hsrc, ?_⟩,
    ⟨_, runTwo_into_register hwf hsrc, ?_⟩⟩
  · rw [pc_twoResult_into_pc rfl hadd, maskW_maskW]
  · rw [pc_twoResult_into_pc rfl hsub, maskW_maskW]
  · rw [pc_twoResult_into_pc rfl hxor, maskW_srcValue_xor]
  · rw [pc_twoResult_into_pc rfl hbis, maskW_srcValue_or]
  · exact pc_twoResult_past rfl hwf rfl (.inl rfl)

end Sys2Proof.Machine
end

section
/-! PROOF. The report of a step (spec/41_execution_engine.md R166): a running block's step is the fault that `stepFault` names or
runs on, and what a step that runs on reports is the resolver's closed forms. -/

namespace Sys2Proof.Machine

open Sys2Proof.Claims

theorem wf_instrAt (s : State) (a : Word) : (s.instrAt a).wf = true := wf_decodeWords _ _ _

theorem exec_of_instrFault {i : Instr} {s : State} {x : FaultRecord} (hwf : i.wf = true) (hf : instrFault i s = some x) :
    exec i s = .next (s.takeFault x) := by
  obtain ⟨t, ht, hans⟩ := exec_answers i s hwf
  rw [hf] at hans
  rw [ht, hans]

/-- A running block takes the fault that `stepFault` names (R246, R248): the fetch's, or the instruction's. -/
theorem step_of_stepFault {s : State} {x : FaultRecord} (hrun : s.run = .running) (hf : stepFault s = some x) :
    step s = .next (s.takeFault x) := by
  unfold stepFault at hf
  split at hf
  · next hio =>
    cases hf
    simp only [step, hrun, State.fetch, if_pos hio]
  · next hio =>
    split at hf
    · next heven => rw [step_of_fetchable hrun hio heven, exec_of_instrFault (wf_instrAt s s.pc) hf]
    · next hodd =>
      cases hf
      simp only [step, hrun, State.fetch, if_neg hio, readWord_of_odd s (Bool.not_eq_true _ ▸ hodd)]

/-- A step after which the block still runs had no fault to raise. -/
theorem stepFault_eq_none {s t : State} (hrun : s.run = .running) (hstep : step s = .next t) (ht : t.run = .running) :
    stepFault s = none := by
  cases hf : stepFault s with
  | none => rfl
  | some x =>
    obtain rfl : s.takeFault x = t := Host.Outcome.next.inj ((step_of_stepFault hrun hf).symm.trans hstep)
    cases ht

theorem instrFault_of_stepFault {s : State} (h : stepFault s = none) : instrFault (s.instrAt s.pc) s = none := by
  unfold stepFault at h
  split at h
  · cases h
  · split at h
    · exact h
    · cases h

theorem stepReport_of_running {s t : State} (hstep : step s = .next t) (ht : t.run = .running) :
    stepReport s = .ok s.pc (s.wordAt s.pc) (s.instrAt s.pc).format (s.instrAt s.pc).mnemonic (s.instrAt s.pc)
      (operandView (s.instrAt s.pc) s) := by
  simp only [stepReport, afterStep_of_step hstep, ht]

/-- Settles O51: a fault-free step's operands resolve, so its report gives the closed forms, and the instruction's word is the
word it was read from. -/
theorem faultFreeStepReportsTheInstruction : Obligations.FaultFreeStepReportsTheInstruction := by
  intro s t hrun hstep ht
  have hodd := oddOperand_of_instrFault (instrFault_of_stepFault (stepFault_eq_none hrun hstep ht))
  refine ⟨?_, word_decodeWords _ _ _, ?_⟩
  · rw [stepReport_of_running hstep ht, operandView_eq (wf_instrAt s s.pc) hodd]
  · unfold operandsInClosedForm
    cases (s.instrAt s.pc).shape with
    | two w src dst => cases src <;> rfl
    | one w op => cases op <;> rfl
    | none => rfl

end Sys2Proof.Machine
end

section
/-! PROOF. The faults of a step (spec/60_exceptions.md R240 to R249): which record `stepFault` names and when, and that a running
block's step is that fault or runs on. -/

namespace Sys2Proof.Machine

open Sys2Proof.Claims

/-! ## The records, in the order of the priority list (R248) -/

/-- The two faults of the fetch, and those of the fetched instruction (R151, R248). -/
theorem stepFault_cases {s : State} {x : FaultRecord} (h : stepFault s = some x) :
    (s.pc ≤ Config.ioLimit ∧ x = s.peripheralRecord) ∨
    (isEven s.pc = false ∧ x = s.fetchAlignmentRecord s.pc) ∨
    (¬ s.pc ≤ Config.ioLimit ∧ isEven s.pc = true ∧ instrFault (s.instrAt s.pc) s = some x) := by
  unfold stepFault at h
  split at h
  · next hio => exact .inl ⟨hio, (Option.some.inj h).symm⟩
  · next hio =>
    split at h
    · next heven => exact .inr (.inr ⟨hio, heven, h⟩)
    · next hodd => exact .inr (.inl ⟨Bool.not_eq_true _ ▸ hodd, (Option.some.inj h).symm⟩)

/-- A step without a fault passed the two tests of the fetch (R151). -/
theorem fetchable_of_stepFault {s : State} (h : stepFault s = none) : ¬ s.pc ≤ Config.ioLimit ∧ isEven s.pc = true := by
  unfold stepFault at h
  split at h
  · cases h
  · next hio =>
    split at h
    · next heven => exact ⟨hio, heven⟩
    · cases h

theorem isEven_of_oddAt {w : Width} {ea : Option Word} {a : Word} (h : oddAt w ea = some a) : isEven a = false := by
  unfold oddAt at h
  split at h
  · split at h
    · cases h
    · next hodd => exact Option.some.inj h ▸ Bool.not_eq_true _ ▸ hodd
  · cases h
  · cases h

theorem isEven_of_oddOperand {i : Instr} {s : State} {a : Word} (h : oddOperand i s = some a) : isEven a = false := by
  unfold oddOperand at h
  split at h
  · rcases Option.or_eq_some_iff.mp h with hsrc | ⟨-, hdst⟩
    · exact isEven_of_oddAt hsrc
    · exact isEven_of_oddAt hdst
  · exact isEven_of_oddAt h
  · cases h

/-- The three faults of a decoded instruction: it is undefined, it accesses a word at an odd address, or it has no handler. -/
theorem instrFault_cases {i : Instr} {s : State} {x : FaultRecord} (h : instrFault i s = some x) :
    (i.mnemonic = none ∧ x = s.undefinedRecord i) ∨
    (i.mnemonic ≠ none ∧ ∃ a, isEven a = false ∧ x = s.alignmentRecord i a) ∨
    (i.mnemonic ≠ none ∧ x = s.unimplementedRecord i) := by
  unfold instrFault at h
  split at h
  · next hm => exact .inl ⟨hm, (Option.some.inj h).symm⟩
  · next m hm =>
    have hsome : i.mnemonic ≠ none := hm ▸ Option.some_ne_none m
    split at h
    · next a hodd => exact .inr (.inl ⟨hsome, a, isEven_of_oddOperand hodd, (Option.some.inj h).symm⟩)
    · split at h
      · split at h
        · split at h
          · cases h
          · next hpush => exact .inr (.inl ⟨hsome, _, Bool.not_eq_true _ ▸ hpush, (Option.some.inj h).symm⟩)
        · cases h
      · exact .inr (.inr ⟨hsome, (Option.some.inj h).symm⟩)

theorem pc_of_stepFault {s : State} {x : FaultRecord} (h : stepFault s = some x) : x.pc = s.pc := by
  rcases stepFault_cases h with ⟨-, rfl⟩ | ⟨-, rfl⟩ | ⟨-, -, hinstr⟩
  · rfl
  · rfl
  · rcases instrFault_cases hinstr with ⟨-, rfl⟩ | ⟨-, a, -, rfl⟩ | ⟨-, rfl⟩ <;> rfl

/-! ## A step against `stepFault` -/

/-- A running block runs on where `stepFault` names no fault. -/
theorem step_of_stepFault_none {s : State} (hrun : s.run = .running) (hf : stepFault s = none) :
    ∃ t, step s = .next t ∧ t.run = .running := by
  obtain ⟨hio, heven⟩ := fetchable_of_stepFault hf
  obtain ⟨t, ht, hans⟩ := exec_answers (s.instrAt s.pc) s (wf_instrAt s s.pc)
  rw [instrFault_of_stepFault hf] at hans
  exact ⟨t, (step_of_fetchable hrun hio heven).trans ht, hans.trans hrun⟩

/-- A step that leaves a running block dead took the fault that `stepFault` names. -/
theorem stepFault_of_dead {s t : State} {x : FaultRecord} (hrun : s.run = .running) (hstep : step s = .next t)
    (ht : t.run = .dead x) : stepFault s = some x ∧ t = s.takeFault x := by
  cases hf : stepFault s with
  | none =>
    obtain ⟨u, hu, hurun⟩ := step_of_stepFault_none hrun hf
    obtain rfl : u = t := Host.Outcome.next.inj (hu.symm.trans hstep)
    cases hurun.symm.trans ht
  | some y =>
    obtain rfl : s.takeFault y = t := Host.Outcome.next.inj ((step_of_stepFault hrun hf).symm.trans hstep)
    cases ht
    exact ⟨rfl, rfl⟩

theorem stepReport_of_dead {s t : State} {x : FaultRecord} (hstep : step s = .next t) (ht : t.run = .dead x) :
    stepReport s = .fault x := by
  simp only [stepReport, afterStep_of_step hstep, ht]

/-- A state that a step leaves as it is, any number of steps leaves as it is. -/
theorem coreRun_of_step_self {M : Host.Core} {s : M.State} (h : M.step s = .next s) (n : Nat) : M.run n s = .next s := by
  induction n with
  | zero => rfl
  | succ n ih => rw [Host.Core.run, h]; exact ih

/-! ## The obligations -/

/-- Settles O41: an undefined row has no mnemonic, and its word is its fixed bits over its free ones. -/
theorem undefinedWordsRaise : Obligations.UndefinedWordsRaise := by
  intro s
  exact ⟨fun low => exec_of_mnemonic_eq_none (i := .undefined0 low) rfl s,
    fun low => exec_of_mnemonic_eq_none (i := .undefined1380 low) rfl s,
    fun low => exec_of_mnemonic_eq_none (i := .undefined1400 low) rfl s,
    fun low => exec_of_mnemonic_eq_none (i := .undefined1800 low) rfl s⟩

/-- Settles O47, by whether `stepFault` names a fault. -/
theorem stepFaultsExactlyByPriority : Obligations.StepFaultsExactlyByPriority := by
  intro s hrun
  cases hf : stepFault s with
  | none => exact step_of_stepFault_none hrun hf
  | some x => exact ⟨s.takeFault x, step_of_stepFault hrun hf, rfl⟩

/-- Settles O48: the step took the fault that `stepFault` names, and a dead block stays as it is. -/
theorem faultCommitsNothing : Obligations.FaultCommitsNothing := by
  intro s t x n hrun hstep ht
  obtain ⟨hf, hst⟩ := stepFault_of_dead hrun hstep ht
  exact ⟨hst, pc_of_stepFault hf, stepReport_of_dead hstep ht,
    coreRun_of_step_self (M := Sys2Proof.core) (step_of_dead ht) n, stepReport_of_dead (step_of_dead ht) ht⟩

/-- Settles O49, record by record; the word of a decoded instruction is the word that was fetched. -/
theorem faultRecordCarriesTheContext : Obligations.FaultRecordCarriesTheContext := by
  intro s t x hrun hstep ht
  obtain ⟨hf, -⟩ := stepFault_of_dead hrun hstep ht
  refine ⟨pc_of_stepFault hf, ?_⟩
  rcases stepFault_cases hf with ⟨hio, rfl⟩ | ⟨hodd, rfl⟩ | ⟨hio, heven, hinstr⟩
  · have hio : s.pc ≤ 0x01FF#16 := hio
    simp [State.peripheralRecord, hio]
  · simp [State.fetchAlignmentRecord, hodd, isEven_eq_false_iff.mp hodd]
  · have hio : ¬ s.pc ≤ 0x01FF#16 := hio
    have hword : (s.instrAt s.pc).word = s.wordAt s.pc := word_decodeWords _ _ _
    rcases instrFault_cases hinstr with ⟨hm, rfl⟩ | ⟨hm, a, hodd, rfl⟩ | ⟨hm, rfl⟩
    · simp [State.undefinedRecord, hio, heven, hword, hm]
    · simp [State.alignmentRecord, hio, heven, hword, isEven_eq_false_iff.mp hodd]
    · simp [State.unimplementedRecord, hio, heven, hword, hm]

end Sys2Proof.Machine
end

section
/-! PROOF. The obligations on the reset state and the reset vector (spec/70_reset_and_hazards.md R270 to R272). -/

namespace Sys2Proof.Machine

open Sys2Proof.Claims

/-! ## What reset and a valid launch hold -/

@[simp] theorem reg_reset (r : Reg) : State.reset.reg r = 0#16 := Vector.getElem_replicate _

@[simp] theorem readByte_reset (a : Word) : State.reset.readByte a = 0#8 := rfl

/-- The loaded state of a valid launch: reset, over the segments' memory, with pc from the reset vector (R64, R271). -/
theorem launch_of_valid {image : List Byte} {gs : List Segment} (hr : gs.all (Segment.inRange image) = true)
    (hd : segmentsDisjoint gs = true) :
    launch image gs = .next ({ State.reset with mem := loadSegments image gs [] }.setPc
      ({ State.reset with mem := loadSegments image gs [] }.wordAt Config.resetVector)) := by
  rw [launch, if_pos hr, if_pos hd]

/-! ## The obligations -/

/-- Settles O53: the registers are 16 zeros, sr among them, and memory lists no byte. -/
theorem resetZeroesEverything : Obligations.ResetZeroesEverything :=
  ⟨reg_reset, readByte_reset, rfl⟩

/-- Settles O57: the one segment is a valid launch, the word it leaves at the vector is 0xF842, and the other registers are
those of reset. -/
theorem resetVectorExample : Obligations.ResetVectorExample := by
  refine ⟨_, launch_of_valid (by decide) (by decide), ?pc, fun r hr => ?others, rfl⟩
  case pc =>
    rw [pc_setPc]
    decide
  case others =>
    rw [reg_setPc, if_neg hr]
    exact reg_reset r

end Sys2Proof.Machine
end

section
/-! PROOF. The round trips of the encoding (spec/30_encoding.md R80 to R97): an instruction's word and extension words decode to
it, and a word's reading encodes to that word and the extension words it takes. -/

namespace Sys2Proof

/-! ## An instruction is the reading of its words (R81 to R97) -/

theorem decodeWords_of_nibble_one {w : Word} (h : field w 12 4 = 0x1#4) (x1 x2 : Word) :
    decodeWords w x1 x2 = decodeSingle w x1 := by
  simp only [decodeWords, h]

theorem nibble_jumpWord (cond : BitVec 3) (off : BitVec 10) :
    field (jumpWord cond off) 12 4 = 0x2#4 ∨ field (jumpWord cond off) 12 4 = 0x3#4 := by
  have hbit : ∀ b : BitVec 1, 0b001#3 ++ b = 0x2#4 ∨ 0b001#3 ++ b = 0x3#4 := by decide
  rw [jump_nibble]
  exact hbit _

theorem decodeWords_jumpWord (cond : BitVec 3) (off : BitVec 10) (x1 x2 : Word) :
    decodeWords (jumpWord cond off) x1 x2 = decodeJump (jumpWord cond off) := by
  rcases nibble_jumpWord cond off with h | h <;> simp only [decodeWords, h]

/-- The rows of the undefined words are disjoint, and a row's free bits are the rest of its word (R97). -/
theorem eq_of_word_eq_of_undefined {i j : Instr} (hi : i.mnemonic = none) (hj : j.mnemonic = none) (h : i.word = j.word) :
    i = j := by
  have h := congrArg BitVec.toNat h
  cases i with
  | undefined0 a | undefined1380 a | undefined1400 a | undefined1800 a =>
    have ha := a.isLt
    cases j with
    | undefined0 b | undefined1380 b | undefined1400 b | undefined1800 b =>
      have hb := b.isLt
      simp only [Instr.word, toNat_append_eq_add, BitVec.toNat_ofNat, Instr.undefined0.injEq, Instr.undefined1380.injEq,
        Instr.undefined1400.injEq, Instr.undefined1800.injEq, reduceCtorEq, ← BitVec.toNat_inj] at h ⊢
      omega
    | _ => cases hj
  | _ => cases hi

theorem decodeWords_word_of_undefined {i : Instr} (hi : i.mnemonic = none) (x1 x2 : Word) :
    decodeWords i.word x1 x2 = i := by
  have hword := word_decodeWords i.word x1 x2
  refine eq_of_word_eq_of_undefined ((mnemonic_eq_none_iff _).mpr ?_) hi hword
  rw [hword]
  exact (mnemonic_eq_none_iff i).mp hi

/-- The second and the third word of an instruction are read as its extension words, and what stands there if it has none does
not matter (R94, R95). -/
theorem decodeWords_word {i : Instr} (hwf : i.wf = true) :
    decodeWords i.word (i.ext.headD 0#16) ((i.ext.drop 1).headD 0#16) = i := by
  cases i with
  | mov w src dst | add w src dst | addc w src dst | subc w src dst | sub w src dst | cmp w src dst
  | dadd w src dst | bit w src dst | bic w src dst | bis w src dst | xor w src dst | and w src dst =>
    have hsrc := (Bool.and_eq_true_iff.mp hwf).1
    simp only [decodeWords, Instr.word, Instr.ext, Instr.shape, two_op, two_bw, widthOfBit_bw, src_of_two _ w dst hsrc,
      dst_of_two _ w dst hsrc]
  | rrc w op | swpb w op | rra w op | sxt w op | push w op | call w op | reti w op =>
    have hop : op.wf = true := hwf
    have hsrc := decodeSrc_fields hop [] 0#16
    rw [List.append_nil] at hsrc
    rw [Instr.word, decodeWords_of_nibble_one (one_nibble _ w op)]
    simp only [decodeSingle, one_op, one_bw, widthOfBit_bw, one_reg, one_as, Instr.ext, Instr.shape, hsrc]
  | jne off | jeq off | jnc off | jc off | jn off | jge off | jl off | jmp off =>
    simp only [Instr.word, decodeWords_jumpWord, decodeJump, jump_cond, jump_off]
  | undefined0 | undefined1380 | undefined1400 | undefined1800 => exact decodeWords_word_of_undefined rfl _ _

/-! ## The decoder on the bytes of words (R57, R94, R96) -/

theorem bytesOfWords_append (xs ys : List Word) : bytesOfWords (xs ++ ys) = bytesOfWords xs ++ bytesOfWords ys := by
  induction xs with
  | nil => rfl
  | cons x xs ih => simp only [List.cons_append, bytesOfWords, ih]

theorem decode_bytesOfWords {w : Word} {ext : List Word} (h : extCount w = ext.length) (hle : ext.length ≤ 2)
    (rest : List Byte) :
    decode (bytesOfWords (w :: ext) ++ rest) = .ok (decodeWords w (ext.headD 0#16) ((ext.drop 1).headD 0#16), rest) := by
  match ext with
  | [] | [_] | [_, _] =>
    simp only [List.length_cons, List.length_nil] at h
    simp [bytesOfWords, decode, Machine.wordOfBytes_split, h]
  | _ :: _ :: _ :: _ => simp at hle

theorem length_ext_le (i : Instr) : i.ext.length ≤ 2 := by
  rw [Instr.ext]
  cases i.shape with
  | two w src dst =>
    have hsrc := length_ext_src_le src
    have hdst := length_ext_dst_le dst
    simp only [List.length_append]
    omega
  | one w op => exact (length_ext_src_le op).trans (by decide)
  | none => exact Nat.zero_le 2

theorem decode_encode {i : Instr} (hwf : i.wf = true) (rest : List Byte) :
    decode (bytesOfWords (encode i) ++ rest) = .ok (i, rest) := by
  rw [encode, decode_bytesOfWords (extCount_word hwf) (length_ext_le i), decodeWords_word hwf]

/-! ## The extension words of a reading are the next words (R94, R95) -/

theorem ext_decodeSrc_prefix (r : Reg) (as : BitVec 2) (x1 x2 : Word) : (decodeSrc r as x1).ext <+: [x1, x2] := by
  rw [decodeSrc_ext]
  split <;> simp

theorem ext_twoOperand_prefix (w x1 x2 : Word) :
    (twoOperandSrc w x1).ext ++ (twoOperandDst w x1 x2).ext <+: [x1, x2] := by
  simp only [twoOperandSrc, twoOperandDst, decodeSrc_ext, decodeDst_ext]
  by_cases hsrc : srcExtCount (field w 8 4) (field w 4 2) = 0 <;> by_cases hdst : dstExtCount (field w 7 1) = 0 <;>
    simp [hsrc, hdst]

theorem ext_decodeSingle_prefix (w x1 x2 : Word) : (decodeSingle w x1).ext <+: [x1, x2] := by
  unfold decodeSingle
  split
  case h_8 => exact List.nil_prefix
  case h_9 => split <;> exact List.nil_prefix
  all_goals exact ext_decodeSrc_prefix _ _ x1 x2

theorem ext_decodeJump (w : Word) : (decodeJump w).ext = [] := by
  unfold decodeJump
  split <;> rfl

theorem ext_decodeWords_prefix (w x1 x2 : Word) : (decodeWords w x1 x2).ext <+: [x1, x2] := by
  unfold decodeWords
  split
  case h_1 => exact ext_decodeSingle_prefix w x1 x2
  case h_2 | h_3 => rw [ext_decodeJump]; exact List.nil_prefix
  case h_16 => exact List.nil_prefix
  all_goals exact ext_twoOperand_prefix w x1 x2

theorem encode_decodeWords (w x1 x2 : Word) : encode (decodeWords w x1 x2) = w :: [x1, x2].take (extCount w) := by
  have hcount := extCount_word (wf_decodeWords w x1 x2)
  rw [word_decodeWords] at hcount
  rw [encode, word_decodeWords, hcount, ← List.prefix_iff_eq_take.mp (ext_decodeWords_prefix w x1 x2)]

/-! ## The format by the word (R84) -/

/-- What the fields that R84 looks at are for an instruction of each format. -/
theorem format_cases (i : Instr) :
    (i.format = .twoOperand ∧ 0x4#4 ≤ field i.word 12 4) ∨
    (i.format = .jump ∧ (field i.word 12 4 = 0x2#4 ∨ field i.word 12 4 = 0x3#4)) ∨
    (i.format = .singleOperand ∧ field i.word 12 4 = 0x1#4 ∧ field i.word 7 9 ≤ 0x026#9) ∨
    (i.format = .undefined ∧ UndefinedRange i.word) := by
  cases i with
  | mov w src dst | add w src dst | addc w src dst | subc w src dst | sub w src dst | cmp w src dst
  | dadd w src dst | bit w src dst | bic w src dst | bis w src dst | xor w src dst | and w src dst =>
    refine .inl ⟨rfl, ?_⟩
    rw [Instr.word, two_op]
    decide
  | jne off | jeq off | jnc off | jc off | jn off | jge off | jl off | jmp off =>
    exact .inr (.inl ⟨rfl, nibble_jumpWord _ off⟩)
  | rrc w op | swpb w op | rra w op | sxt w op | push w op | call w op | reti w op =>
    refine .inr (.inr (.inl ⟨rfl, one_nibble _ w op, ?_⟩))
    rw [Instr.word, one_op]
    decide
  | undefined0 | undefined1380 | undefined1400 | undefined1800 =>
    exact .inr (.inr (.inr ⟨rfl, (mnemonic_eq_none_iff _).mp rfl⟩))

theorem format_ranges (w x1 x2 : Word) :
    ((decodeWords w x1 x2).format = .twoOperand ∧ 0x4000 ≤ w.toNat) ∨
    ((decodeWords w x1 x2).format = .jump ∧ 0x2000 ≤ w.toNat ∧ w.toNat ≤ 0x3FFF) ∨
    ((decodeWords w x1 x2).format = .singleOperand ∧ 0x1000 ≤ w.toNat ∧ w.toNat ≤ 0x137F) ∨
    ((decodeWords w x1 x2).format = .undefined ∧ (w.toNat ≤ 0x0FFF ∨ (0x1380 ≤ w.toNat ∧ w.toNat ≤ 0x1FFF))) := by
  have hw := w.isLt
  have hfields := format_cases (decodeWords w x1 x2)
  rw [word_decodeWords, undefinedRange_iff_toNat, le_field_iff, field_eq_iff, field_eq_iff, field_eq_iff, BitVec.le_def,
    toNat_field, BitVec.toNat_ofNat] at hfields
  refine hfields.imp (And.imp_right ?_) (Or.imp (And.imp_right ?_) (Or.imp_left (And.imp_right ?_))) <;> omega

end Sys2Proof

namespace Sys2Proof.Machine

/-! ## The obligations -/

/-- Settles O1: the decoder takes as many extension words as the instruction has, and reads its words as it. -/
theorem decodeOfEncodeIsTheInstruction : Obligations.DecodeOfEncodeIsTheInstruction :=
  fun _ rest hwf => decode_encode hwf rest

/-- Settles O2: a well-formed reading has as many extension words as its word calls for, and they are the next words. -/
theorem everyWordIsTheEncodingOfItsReading : Obligations.EveryWordIsTheEncodingOfItsReading :=
  fun w x1 x2 => ⟨wf_decodeWords w x1 x2, encode_decodeWords w x1 x2⟩

/-- Settles O4: the reading of a word has the word, whose fields tell the four formats apart. -/
theorem topNibbleSelectsTheFormat : Obligations.TopNibbleSelectsTheFormat := by
  intro w x1 x2
  rcases format_ranges w x1 x2 with ⟨hf, h⟩ | ⟨hf, h⟩ | ⟨hf, h⟩ | ⟨hf, h⟩ <;>
    simp only [hf, reduceCtorEq, imp_false, implies_true, true_and, and_true, BitVec.le_def, BitVec.toNat_ofNat] <;> omega

/-- Settles O7, word by word. -/
theorem writtenOutWordsDecode : Obligations.WrittenOutWordsDecode := by
  refine ⟨?_, ?_, ?_, ?_, ?_, ?_⟩ <;> decide

end Sys2Proof.Machine
end

section
/-! PROOF. What a step can do, said once (spec/41_execution_engine.md R150): it takes a fault, or it ends in a two-operand result,
a CALL or a jump; and, read off from that, what becomes of memory, of sr and of pc. -/

namespace Sys2Proof.Machine

open Sys2Proof.Claims

/-! ## The end states of CALL and of the jumps -/

/-- A jump, taken or not, writes no register but pc (R228). -/
theorem reg_jump_ne (s : State) (off : BitVec 10) (taken : Bool) {q : Reg} (h : q ≠ Reg.pc) :
    (if taken then s.jumpBy off else s).bumpPc.reg q = s.reg q := by
  rw [reg_bumpPc, if_neg h]
  cases taken
  · rfl
  · exact (reg_setPc s _ q).trans (if_neg h)

/-- Where CALL ends: the operand in pc, sp at the pushed word, an autoincremented register higher (R205). -/
theorem reg_callResult (w : Width) {op : Src} (hwf : op.wf = true) (s : State) (q : Reg) :
    (callResult w op s).reg q =
      if q = Reg.pc then srcValue w op s else if q = Reg.sp then callPushAddr w op s
      else if op = .autoinc q then s.reg q + incBy w else s.reg q := by
  rw [callResult, reg_setPc, reg_setWordAt, reg_setSp, sp_srcState w hwf, reg_srcState w hwf, State.regAfterSrc]
  split <;> rfl

@[simp] theorem draws_callResult (w : Width) (op : Src) (s : State) : (callResult w op s).draws = s.draws := by
  simp [callResult]

theorem sr_callResult (w : Width) {op : Src} (hwf : op.wf = true) (s : State) : (callResult w op s).sr = s.sr := by
  rw [← reg_sr, reg_callResult w hwf, if_neg (by decide), if_neg (by decide), if_neg, reg_sr]
  rintro rfl
  cases hwf

/-! ## Stores -/

theorem mem_storeAt_congr {s t : State} (h : s.mem = t.mem) (w : Width) (a v : Word) :
    (storeAt w s a v).mem = (storeAt w t a v).mem := by
  cases w <;> simp only [storeAt, State.setWordAt, State.writeByte, h]

/-- A store of width w takes the low w bits of the value only (R54, R56). -/
theorem storeAt_maskW (w : Width) (s : State) (a v : Word) : storeAt w s a (maskW w v) = storeAt w s a v := by
  cases w
  · rfl
  · simp only [storeAt, maskW, BitVec.truncate_eq_setWidth]
    congr 1
    apply BitVec.eq_of_toNat_eq
    simp [BitVec.extractLsb'_toNat]

theorem mem_callResult (w : Width) {op : Src} (hwf : op.wf = true) (s : State) :
    (callResult w op s).mem = (storeAt .word s (callPushAddr w op s) ((srcState w op s).pc + 2#16)).mem := by
  rw [callResult, mem_setPc, sp_srcState w hwf]
  exact mem_storeAt_congr (mem_srcState w op s) .word _ _

/-! ## A step -/

/-- Every step takes a fault, or is the fetched instruction's. The step of a dead block is of the first kind: the fault it
takes is the one it holds (R36). -/
theorem step_cases {s t : State} (h : step s = .next t) :
    (∃ x, t = s.takeFault x) ∨
    (s.run = .running ∧ t.run = .running ∧ stepFault s = none ∧ exec (s.instrAt s.pc) s = .next t) := by
  cases hrun : s.run with
  | dead x =>
    obtain rfl : s = t := Host.Outcome.next.inj ((step_of_dead hrun).symm.trans h)
    exact .inl ⟨x, by rw [State.takeFault, ← hrun]⟩
  | running =>
    cases hf : stepFault s with
    | some x => exact .inl ⟨x, (Host.Outcome.next.inj ((step_of_stepFault hrun hf).symm.trans h)).symm⟩
    | none =>
      obtain ⟨hio, heven⟩ := fetchable_of_stepFault hf
      obtain ⟨u, hu, hurun⟩ := step_of_stepFault_none hrun hf
      obtain rfl : u = t := Host.Outcome.next.inj (hu.symm.trans h)
      exact .inr ⟨rfl, hurun, rfl, (step_of_fetchable hrun hio heven).symm.trans h⟩

theorem dataWrites_of_takeFault {s : State} {x : FaultRecord} (h : step s = .next (s.takeFault x)) : dataWrites s = [] := by
  simp only [dataWrites, afterStep_of_step h, run_takeFault]

theorem dataWrites_of_running {s t : State} (h : step s = .next t) (ht : t.run = .running) :
    dataWrites s = instrWrites (s.instrAt s.pc) s := by
  simp only [dataWrites, afterStep_of_step h, ht]

/-! ## Memory after a step (R54, R156, R205) -/

/-- Memory is as before, or the one reported write is stored in it. -/
def StoresWrites (writes : List DataWrite) (s t : State) : Prop :=
  (writes = [] ∧ t.mem = s.mem) ∨
  ∃ d : DataWrite, writes = [d] ∧ maskW d.width d.value = d.value ∧ t.mem = (storeAt d.width s d.addr d.value).mem

theorem storesWrites_twoOperand {i : Instr} {s t : State} (h : EndsTwoOperand i s t) : StoresWrites (instrWrites i s) s t := by
  obtain ⟨m, w, src, dst, hd, -, -, -, -, rfl, -, -, -, hwrites⟩ := h
  unfold StoresWrites
  rw [hwrites, mem_twoResult]
  cases (hd (twoOperands w src dst s)).result with
  | none => exact .inl ⟨rfl, mem_twoState w src dst s⟩
  | some r =>
    cases twoTarget w src dst s with
    | reg d => exact .inl ⟨rfl, (mem_writeReg _ _ _).trans (mem_twoState w src dst s)⟩
    | none => exact .inl ⟨rfl, mem_twoState w src dst s⟩
    | mem ea =>
      refine .inr ⟨_, rfl, maskW_maskW w r, ?_⟩
      rw [storeAt_maskW]
      exact mem_storeAt_congr (mem_twoState w src dst s) w ea r

/-- A step's reported writes are all that becomes of memory. -/
theorem storesWrites_step {s t : State} (h : step s = .next t) : StoresWrites (dataWrites s) s t := by
  rcases step_cases h with ⟨x, rfl⟩ | ⟨-, ht, hf, hexec⟩
  · exact .inl ⟨dataWrites_of_takeFault h, rfl⟩
  · rw [dataWrites_of_running h ht]
    rcases exec_ends (wf_instrAt s s.pc) (instrFault_of_stepFault hf) hexec with
      htwo | ⟨w, op, -, hop, -, -, rfl, hwrites⟩ | ⟨off, taken, -, rfl, hwrites⟩
    · exact storesWrites_twoOperand htwo
    · exact .inr ⟨_, hwrites, rfl, mem_callResult w hop s⟩
    · refine .inl ⟨hwrites, ?_⟩
      cases taken <;> rfl

/-! ## sr after a step (R28 to R31) -/

section

variable {w : Width} {src : Src} {dst : Dst} {handler : Operands → HandlerResult} {s : State}

theorem draws_twoResult : (twoResult w src dst handler s).draws = (writtenBack w src dst handler s).draws := by
  rw [twoResult_eq_writtenBack, draws_advance, draws_updateFlagsOpt]

/-- Without a result for sr nothing is drawn (R30). -/
theorem draws_twoResult_ne (h : (handler (twoOperands w src dst s)).result = none ∨ dst ≠ .reg Reg.sr) :
    (twoResult w src dst handler s).draws = s.draws := by
  rw [draws_twoResult, writtenBack, draws_placeResult _ _ _ _ (h.imp_right (mt eq_reg_of_twoTarget)), draws_twoState]

/-- A result for sr is one draw (R30). -/
theorem draws_twoResult_into {r : Word} (h : (handler (twoOperands w src (.reg Reg.sr) s)).result = some r) :
    (twoResult w src (.reg Reg.sr) handler s).draws = s.draws + 1 := by
  rw [draws_twoResult, writtenBack_reg h, writeReg_sr, draws_writeSr, draws_twoState]

theorem sr_writtenBack_ne (hwf : src.wf = true)
    (h : (handler (twoOperands w src dst s)).result = none ∨ dst ≠ .reg Reg.sr) :
    (writtenBack w src dst handler s).sr = s.sr := by
  rw [← reg_sr, reg_writtenBack_ne h, reg_sr, sr_twoState w hwf]

/-- Flag writes leave the storage bits, and nothing else writes sr but a result for it (R28, R158). -/
theorem storageBit_twoResult {k : Nat} (hwf : src.wf = true)
    (h : (handler (twoOperands w src dst s)).result = none ∨ dst ≠ .reg Reg.sr) (hk : storageBit k) :
    (twoResult w src dst handler s).sr.getLsbD k = s.sr.getLsbD k := by
  have h3 : 3 ≤ k ∧ k ≠ 8 := by unfold storageBit at hk; omega
  rw [getLsbD_sr_twoResult h3.1 h3.2, sr_writtenBack_ne hwf h]

end

/-- sr's storage bits stay and nothing is drawn, or `i` writes sr as a whole and draws once. -/
def DrawsOrKeepsStorage (i : Instr) (s t : State) : Prop :=
  (t.draws = s.draws ∧ ∀ k, storageBit k → t.sr.getLsbD k = s.sr.getLsbD k) ∨ (writesSr i ∧ t.draws = s.draws + 1)

theorem drawsOrKeepsStorage_twoOperand {i : Instr} {s t : State} (h : EndsTwoOperand i s t) : DrawsOrKeepsStorage i s t := by
  obtain ⟨m, w, src, dst, hd, hshape, hm, hwf, -, rfl, hres, -, -, -⟩ := h
  by_cases hsr : (hd (twoOperands w src dst s)).result = none ∨ dst ≠ .reg Reg.sr
  · exact .inl ⟨draws_twoResult_ne hsr, fun k hk => storageBit_twoResult hwf hsr hk⟩
  · obtain ⟨hsome, rfl⟩ : (hd (twoOperands w src dst s)).result ≠ none ∧ dst = .reg Reg.sr := by simpa using hsr
    obtain ⟨r, hr⟩ := Option.ne_none_iff_exists'.mp hsome
    exact .inr ⟨⟨w, src, m, hshape, hm, mt hres.mpr hsome⟩, draws_twoResult_into hr⟩

theorem drawsOrKeepsStorage_step {s t : State} (h : step s = .next t) : DrawsOrKeepsStorage (s.instrAt s.pc) s t := by
  rcases step_cases h with ⟨x, rfl⟩ | ⟨-, -, hf, hexec⟩
  · exact .inl ⟨rfl, fun _ _ => rfl⟩
  · rcases exec_ends (wf_instrAt s s.pc) (instrFault_of_stepFault hf) hexec with
      htwo | ⟨w, op, -, hop, -, -, rfl, -⟩ | ⟨off, taken, -, rfl, -⟩
    · exact drawsOrKeepsStorage_twoOperand htwo
    · exact .inl ⟨draws_callResult w op s, fun k _ => by rw [sr_callResult w hop]⟩
    · refine .inl ⟨?_, fun k _ => ?_⟩
      · cases taken <;> rfl
      · rw [← reg_sr, reg_jump_ne s off taken (by decide), reg_sr]

/-! ## pc after a step (R21, R22) -/

theorem isEven_iff_toNat {a : Word} : isEven a = true ↔ a.toNat % 2 = 0 := by
  rw [isEven_eq_true_iff, ← BitVec.testBit_toNat, Nat.testBit_zero, decide_eq_false_iff_not]
  omega

theorem isEven_add {a b : Word} (ha : isEven a = true) (hb : isEven b = true) : isEven (a + b) = true := by
  rw [isEven_iff_toNat, BitVec.toNat_add] at *
  omega

theorem isEven_ofNat_two_mul (n : Nat) : isEven (BitVec.ofNat 16 (2 * n)) = true := by
  rw [isEven_iff_toNat, BitVec.toNat_ofNat]
  omega

theorem isEven_jumpDisp (off : BitVec 10) : isEven (BitVec.ofInt 16 (jumpDisp off)) = true := by
  rw [isEven_iff_toNat, BitVec.toNat_ofInt, jumpDisp]
  omega

theorem isEven_nextPc (i : Instr) {s : State} (h : isEven s.pc = true) : isEven (nextPc i s) = true :=
  isEven_add h (isEven_ofNat_two_mul _)

theorem pc_twoOperand {i : Instr} {s t : State} (h : EndsTwoOperand i s t) (hpc : ¬ writesPc i) : t.pc = nextPc i s := by
  obtain ⟨m, w, src, dst, hd, hshape, hm, hwf, -, rfl, hres, -, hadv, -⟩ := h
  have hdst : m = .cmp ∨ dst ≠ .reg Reg.pc := by
    by_contra hno
    obtain ⟨hne, rfl⟩ : m ≠ .cmp ∧ dst = .reg Reg.pc := by simpa using hno
    exact hpc (.inl ⟨w, src, m, hshape, hm, hne⟩)
  have hsuppress : (hd (twoOperands w src dst s)).suppressAdvance = false := by
    rw [← Bool.not_eq_true, hadv]
    rintro ⟨rfl, rfl⟩
    simp at hdst
  exact pc_twoResult_past hshape hwf hsuppress (hdst.imp_left hres.mpr)

/-! ## The obligations -/

/-- Settles O11: a step's one store, at an address below the memory size, keeps the form. -/
theorem stepKeepsMemoryCanonical : Obligations.StepKeepsMemoryCanonical := by
  intro s t hs h
  unfold State.memCanonical at *
  rcases storesWrites_step h with ⟨-, hmem⟩ | ⟨d, -, -, hmem⟩
  · rwa [hmem]
  · rw [hmem]
    exact wf_storeAt d.width d.addr d.value hs

/-- Settles O13: what is stored is the reported write, which leaves every byte but its own. -/
theorem stepChangesOnlyReportedBytes : Obligations.StepChangesOnlyReportedBytes := by
  intro s t h a ha
  rcases storesWrites_step h with ⟨-, hmem⟩ | ⟨d, hd, -, hmem⟩
  · exact readByte_congr hmem a
  · obtain ⟨hne, hne'⟩ := ha d (by simp [hd])
    rw [readByte_congr hmem, readByte_storeAt_ne d.width s d.addr d.value a hne hne']

/-- Settles O14: the reported write is the one stored, and reads back at its width. -/
theorem reportedWritesAreStored : Obligations.ReportedWritesAreStored := by
  intro s t h _ d hd
  rcases storesWrites_step h with ⟨hnil, -⟩ | ⟨e, he, hmask, hmem⟩
  · simp [hnil] at hd
  · obtain rfl : d = e := by simpa [he] using hd
    rw [valueAt_congr hmem, valueAt_storeAt, hmask]

/-- Settles O17: a step that changes a storage bit draws, and then its instruction writes sr as a whole. -/
theorem storageBitsChangeOnlyByWholeWrite : Obligations.StorageBitsChangeOnlyByWholeWrite := by
  intro s t h hno
  rcases drawsOrKeepsStorage_step h with ⟨-, hbits⟩ | ⟨hwrites, -⟩
  · exact hbits
  · exact absurd hwrites hno

/-- Settles O19: a step that does not draw keeps the reserved bits, which are storage bits; one that draws counts it. -/
theorem reservedBitsAreZeroBeforeTheFirstDraw : Obligations.ReservedBitsAreZeroBeforeTheFirstDraw := by
  refine ⟨⟨rfl, by decide⟩, fun s t hinv h h0 => ?_⟩
  rcases drawsOrKeepsStorage_step h with ⟨hdraws, hbits⟩ | ⟨-, hdraws⟩
  · rw [← hinv (hdraws ▸ h0)]
    apply BitVec.eq_of_getLsbD_eq
    intro k hk
    simp only [State.srReserved, BitVec.getLsbD_extractLsb', hbits (9 + k) (.inr (by omega))]
  · omega

/-- Settles O50: the fetch took an even pc, and every move that the block makes of it is by an even amount. -/
theorem pcStaysEvenUnlessWritten : Obligations.PcStaysEvenUnlessWritten := by
  intro s t hrun h ht hno
  rcases step_cases h with ⟨x, rfl⟩ | ⟨-, -, hf, hexec⟩
  · cases ht
  · have heven := (fetchable_of_stepFault hf).2
    rcases exec_ends (wf_instrAt s s.pc) (instrFault_of_stepFault hf) hexec with
      htwo | ⟨w, op, hcall, -⟩ | ⟨off, taken, -, rfl, -⟩
    · rw [pc_twoOperand htwo hno]
      exact isEven_nextPc _ heven
    · exact absurd (.inr ⟨w, op, hcall⟩) hno
    · rw [pc_bumpPc]
      refine isEven_add ?_ (by decide)
      cases taken
      · exact heven
      · rw [if_pos rfl, State.jumpBy, pc_setPc]
        exact isEven_add heven (isEven_jumpDisp off)

end Sys2Proof.Machine
end

section
/-! PROOF. The obligations on registers and words (spec/10_state.md R20 to R31, 20_memory.md R57) and on the reset memory. -/

namespace Sys2Proof.Machine

/-- Settles O10: a word write that succeeds was at an even address and stored the two bytes. -/
theorem wordsAreLittleEndian : Obligations.WordsAreLittleEndian := by
  intro s t a v h
  cases heven : isEven a with
  | false => simp [writeWord_of_odd s v heven] at h
  | true =>
    obtain rfl : s.setWordAt a v = t := Except.ok.inj ((writeWord_of_even s v heven).symm.trans h)
    refine ⟨readByte_setWordAt_low s a v, readByte_setWordAt_high s a v, fun b hlow hhigh => ?_⟩
    rw [readByte_setWordAt, if_neg hhigh, if_neg hlow]

/-- Settles O12: reset lists no byte. -/
theorem resetMemoryIsCanonical : Obligations.ResetMemoryIsCanonical := rfl

/-- Settles O15, field by field. -/
theorem registerWriteReadsBack : Obligations.RegisterWriteReadsBack := by
  intro s r v
  refine ⟨reg_writeReg_same s v, ?_, fun q => reg_writeReg_ne s v, mem_writeReg s r v, run_writeReg s r v,
    draws_writeReg s r v⟩
  rintro rfl
  rw [writeReg_sr, sr_writeSr_low]

/-- Settles O16, field by field. -/
theorem flagWriteChangesOneBit : Obligations.FlagWriteChangesOneBit := by
  intro s k b hk
  have hbit : ∀ j, (s.setSrBit k b).sr.getLsbD j = if j = k then b else s.sr.getLsbD j := fun j => by
    rw [sr_setSrBit, getLsbD_setBit _ _ _ _ hk]
  exact ⟨(hbit k).trans (if_pos rfl), fun j hj => (hbit j).trans (if_neg hj), fun q => reg_setSrBit_ne s k b, rfl, rfl, rfl⟩

end Sys2Proof.Machine
end

section
/-! PROOF. The obligations on what a step and an instruction raise, and on a step without a fault (spec/41_execution_engine.md
R151, R152, 60_exceptions.md R240 to R248, 00_scope.md R12). -/

namespace Sys2Proof.Machine

open Sys2Proof.Claims

/-! ## Instructions that raise (R135, R154, R205) -/

theorem exec_of_unimplemented {i : Instr} {m : Mnemonic} {s : State} (hm : i.mnemonic = some m)
    (himp : Mnemonic.implemented m = false) (h : readable i s) :
    exec i s = .next (deadWith s .unimplementedOpcode (some i.word) (some m) none) := by
  obtain ⟨hwf, hodd⟩ := h
  have hf : instrFault i s = some (s.unimplementedRecord i) := by simp [instrFault, hm, hodd, himp]
  rw [exec_of_instrFault hwf hf, State.unimplementedRecord, hm]
  rfl

theorem oddOperand_of_mnemonic_none {i : Instr} (h : i.mnemonic = none) (s : State) : oddOperand i s = none := by
  cases i with
  | undefined0 | undefined1380 | undefined1400 | undefined1800 => rfl
  | _ => cases h

theorem instrFault_of_oddOperand {i : Instr} {s : State} {a : Word} (h : oddOperand i s = some a) :
    instrFault i s = some (s.alignmentRecord i a) := by
  unfold instrFault
  split
  · next hm => rw [oddOperand_of_mnemonic_none hm] at h; cases h
  · rw [h]

/-- Settles O33: six mnemonics without a handler. -/
theorem unimplementedTwoOperandsRaise : Obligations.UnimplementedTwoOperandsRaise := by
  intro w src dst s
  refine ⟨?_, ?_, ?_, ?_, ?_, ?_⟩ <;> exact exec_of_unimplemented rfl rfl

/-- Settles O36: six mnemonics without a handler. -/
theorem unimplementedSingleOperandsRaise : Obligations.UnimplementedSingleOperandsRaise := by
  intro w op s
  refine ⟨?_, ?_, ?_, ?_, ?_, ?_⟩ <;> exact exec_of_unimplemented rfl rfl

/-- Settles O40: six mnemonics without a handler; a jump has no operand to read. -/
theorem unimplementedJumpsRaise : Obligations.UnimplementedJumpsRaise := by
  intro off s
  refine ⟨?_, ?_, ?_, ?_, ?_, ?_⟩ <;> exact exec_of_unimplemented rfl rfl ⟨rfl, rfl⟩

/-- Settles O35: once the operand is read, the push is the fault that `instrFault` names. -/
theorem callPushAtOddAddressFaults : Obligations.CallPushAtOddAddressFaults := by
  intro w op s ⟨hwf, hodd⟩ hpush
  have hf : instrFault (.call w op) s = some (s.alignmentRecord (.call w op) (callPushAddr w op s)) := by
    simp [instrFault, Instr.mnemonic, Mnemonic.implemented, hodd, hpush]
  exact exec_of_instrFault hwf hf

/-- Settles O42: an odd operand is the fault that `instrFault` names, before it asks for a handler. -/
theorem misalignedOperandFaults : Obligations.MisalignedOperandFaults :=
  fun _ _ _ hwf hodd => exec_of_instrFault hwf (instrFault_of_oddOperand hodd)

/-! ## A step of a running or a dead block -/

theorem wordOfBytes_low (lo hi : Byte) : (wordOfBytes lo hi).extractLsb' 0 8 = lo := BitVec.extractLsb'_append_eq_right

theorem wordOfBytes_high (lo hi : Byte) : (wordOfBytes lo hi).extractLsb' 8 8 = hi := BitVec.extractLsb'_append_eq_left

/-- The bytes given to the decoder are those of the three words at pc (R57, R67). -/
theorem bytesAt_eq (s : State) (a : Word) :
    bytesAt s a = bytesOfWords [s.wordAt a, s.wordAt (a + 2#16), s.wordAt (a + 4#16)] := by
  simp only [bytesAt, bytesOfWords, State.wordAt, wordOfBytes_low, wordOfBytes_high, BitVec.add_assoc]
  rfl

/-- The decoder reads from those bytes the instruction that the fetch reads: they are its encoding and what follows it. -/
theorem decode_bytesAt (s : State) (a : Word) : ∃ rest, decode (bytesAt s a) = .ok (s.instrAt a, rest) := by
  have henc : encode (s.instrAt a) = _ := encode_decodeWords _ _ _
  refine ⟨bytesOfWords ([s.wordAt (a + 2#16), s.wordAt (a + 4#16)].drop (extCount (s.wordAt a))), ?_⟩
  rw [← decode_encode (wf_instrAt s a), ← bytesOfWords_append, henc, List.cons_append, List.take_append_drop, bytesAt_eq]

/-- Settles O43: the fetch reads what the decoder does. -/
theorem stepRunsTheDecodedInstruction : Obligations.StepRunsTheDecodedInstruction := by
  intro s i rest hrun hio heven hdec
  obtain ⟨rest', hdec'⟩ := decode_bytesAt s s.pc
  obtain ⟨rfl, -⟩ : s.instrAt s.pc = i ∧ rest' = rest := by simpa [hdec'] using hdec
  exact step_of_fetchable hrun (BitVec.not_le.mpr hio) heven

/-- Settles O44: the two faults of the fetch are the first that `stepFault` names. -/
theorem fetchFaults : Obligations.FetchFaults := by
  intro s hrun
  constructor
  · intro hio
    exact step_of_stepFault (x := s.peripheralRecord) hrun (if_pos hio)
  · intro hio hodd
    refine step_of_stepFault (x := s.fetchAlignmentRecord s.pc) hrun ?_
    have hio : ¬ s.pc ≤ Config.ioLimit := BitVec.not_le.mpr hio
    simp [stepFault, hio, hodd]

/-- Settles O45: a step of a dead block leaves it, so any number of steps does, and it reports the record it holds. -/
theorem deadBlockStaysAsItIs : Obligations.DeadBlockStaysAsItIs := fun _ _ n hdead =>
  ⟨coreRun_of_step_self (M := Sys2Proof.core) (step_of_dead hdead) n, stepReport_of_dead (step_of_dead hdead) hdead⟩

/-- Settles O46, by the run state and by whether `stepFault` names a fault. -/
theorem everyStepAnswersNext : Obligations.EveryStepAnswersNext := by
  intro s
  cases hrun : s.run with
  | dead x => exact ⟨s, step_of_dead hrun⟩
  | running =>
    obtain ⟨t, ht, -⟩ := stepFaultsExactlyByPriority s hrun
    exact ⟨t, ht⟩

/-! ## Decode-for-display (R12) -/

/-- The block with pc at an address, set running: what display steps (log 8). -/
def State.runningAt (s : State) (a : Word) : State := { s.setPc a with run := .running }

theorem displayAt_of_fault {s : State} {a : Word} {x : FaultRecord} (hf : stepFault (s.runningAt a) = some x) :
    displayAt s a = .fault x.kind := by
  have hafter := afterStep_of_step (step_of_stepFault rfl hf)
  rw [State.runningAt] at hafter
  simp only [displayAt, hafter, run_takeFault]

theorem displayAt_of_no_fault {s : State} {a : Word} (hf : stepFault (s.runningAt a) = none) :
    displayAt s a = .instr (s.instrAt a).format (s.instrAt a).mnemonic (s.instrAt a)
      (operandView (s.instrAt a) (s.runningAt a)) := by
  obtain ⟨t, hstep, ht⟩ := step_of_stepFault_none rfl hf
  have hafter := afterStep_of_step hstep
  rw [State.runningAt] at hafter
  simp only [displayAt, hafter, ht]
  rfl

/-- Operands do not depend on the run state. -/
theorem operandsInClosedForm_runningAt (i : Instr) (s : State) (a : Word) :
    operandsInClosedForm i (s.runningAt a) = operandsInClosedForm i (s.setPc a) := rfl

/-- Settles O52: display is what a step of the block set running there does, and where that has no fault its operands resolve. -/
theorem displayReportsTheFaultAStepWouldRaise : Obligations.DisplayReportsTheFaultAStepWouldRaise := by
  intro s a
  change match stepFault (s.runningAt a) with | some x => _ | none => _
  cases hf : stepFault (s.runningAt a) with
  | some x => exact displayAt_of_fault hf
  | none =>
    have hodd : oddOperand (s.instrAt a) (s.runningAt a) = none := by
      have hodd := oddOperand_of_instrFault (instrFault_of_stepFault hf)
      rwa [show (s.runningAt a).pc = a from pc_setPc s a] at hodd
    rw [displayAt_of_no_fault hf, operandView_eq (wf_instrAt s a) hodd, operandsInClosedForm_runningAt]

end Sys2Proof.Machine
end

section
/-! PROOF. The obligations on CALL and on the jumps (spec/43_single_operand.md R205, 44_jumps.md R221, R227, R228). -/

namespace Sys2Proof.Machine

open Sys2Proof.Claims

/-! ## CALL -/

theorem exec_call_of_readable {w : Width} {op : Src} {s : State} (h : readable (.call w op) s)
    (hpush : isEven (callPushAddr w op s) = true) : exec (.call w op) s = .next (callResult w op s) := by
  obtain ⟨hwf, hodd⟩ := h
  have hodd : oddAt w (srcEA op s) = none := hodd
  have hpush : oddAt .word (some (callPushAddr w op s)) = none := if_pos hpush
  simp only [exec, execCall_eq w hwf, hodd, hpush, Option.none_or]

theorem pc_srcState_add_two (w : Width) {op : Src} (hwf : op.wf = true) (s : State) :
    (srcState w op s).pc + 2#16 = nextPc (.call w op) s := by
  rw [← reg_pc, reg_srcState w hwf, State.regAfterSrc, if_pos rfl]
  simp only [nextPc, Instr.length, Instr.ext, Instr.shape, extBytes, Nat.mul_add, BitVec.ofNat_add]
  rw [BitVec.add_comm (BitVec.ofNat 16 (2 * 1)), BitVec.add_assoc]

/-- Settles O34: CALL ends in `callResult`, whose memory is one store. -/
theorem callPushesAndTransfers : Obligations.CallPushesAndTransfers := by
  intro w op s h hpush
  have hwf : op.wf = true := h.1
  have hmem := mem_callResult w hwf s
  rw [pc_srcState_add_two w hwf] at hmem
  refine ⟨_, exec_call_of_readable h hpush, run_callResult w op s, draws_callResult w op s, ?pc, ?sp, ?pushed, ?bytes,
    fun q hpc hsp => ?regs⟩
  case pc => exact reg_callResult w hwf s Reg.pc
  case sp => exact reg_callResult w hwf s Reg.sp
  case pushed => exact (wordAt_congr hmem _).trans (valueAt_storeAt .word s _ _)
  case bytes =>
    intro b hlow hhigh
    rw [readByte_congr hmem, readByte_storeAt_ne .word s _ _ b hlow fun _ => hhigh]
  case regs => rw [reg_callResult w hwf, if_neg hpc, if_neg hsp]

/-! ## The jumps -/

theorem setPc_setPc (s : State) (u v : Word) : (s.setPc u).setPc v = s.setPc v := by
  apply State.ext_reg
  case hr =>
    intro q
    simp only [reg_setPc]
    split <;> rfl
  all_goals rfl

/-- Where a jump that is taken goes (R228, R89). -/
def jumpTarget (off : BitVec 10) (s : State) : Word := BitVec.ofInt 16 (s.pc.toNat + 2 + 2 * off.toInt)

theorem bumpPc_jumpBy (s : State) (off : BitVec 10) : (s.jumpBy off).bumpPc = s.setPc (jumpTarget off s) := by
  have htarget : jumpTarget off s = s.pc + BitVec.ofInt 16 (jumpDisp off) + 2#16 := by
    rw [jumpTarget, Int.add_right_comm, BitVec.ofInt_add, BitVec.ofInt_add, BitVec.ofInt_natCast, BitVec.ofNat_toNat,
      BitVec.setWidth_eq]
    rfl
  rw [State.bumpPc, State.jumpBy, setPc_setPc, pc_setPc, htarget]

theorem exec_jmp (off : BitVec 10) (s : State) : exec (.jmp off) s = .next (s.setPc (jumpTarget off s)) :=
  congrArg _ (bumpPc_jumpBy s off)

theorem exec_jeq (off : BitVec 10) (s : State) :
    exec (.jeq off) s = .next (s.setPc (if s.sr.getLsbD 1 = true then jumpTarget off s else s.pc + 2#16)) := by
  change Host.Outcome.next (State.bumpPc (if s.sr.getLsbD 1 = true then s.jumpBy off else s)) = _
  split
  · rw [bumpPc_jumpBy]
  · rfl

/-- What a jump leaves: all but pc (R228). -/
theorem setPc_frame (s : State) (v : Word) :
    (∀ q, q ≠ Reg.pc → (s.setPc v).reg q = s.reg q) ∧ (s.setPc v).mem = s.mem ∧ (s.setPc v).run = s.run ∧
      (s.setPc v).draws = s.draws :=
  ⟨fun q hq => (reg_setPc s v q).trans (if_neg hq), rfl, rfl, rfl⟩

/-- Settles O37: JMP writes its target to pc. -/
theorem jmpAddsTheScaledOffset : Obligations.JmpAddsTheScaledOffset :=
  fun off s => ⟨_, exec_jmp off s, pc_setPc s _, setPc_frame s _⟩

/-- Settles O38: JEQ writes its target or the next address to pc, by bit 1 of sr. -/
theorem jeqJumpsWhenZIsSet : Obligations.JeqJumpsWhenZIsSet :=
  fun off s => ⟨_, exec_jeq off s, pc_setPc s _, setPc_frame s _⟩

theorem jumpTarget_self (s : State) : jumpTarget 0x3FF#10 s = s.pc := by
  have hoff : (s.pc.toNat : Int) + 2 + 2 * (0x3FF#10).toInt = s.pc.toNat := by
    rw [show (0x3FF#10).toInt = -1 from rfl]
    omega
  rw [jumpTarget, hoff, BitVec.ofInt_natCast, BitVec.ofNat_toNat, BitVec.setWidth_eq]

/-- Settles O39: the target of offset -1 is pc itself. -/
theorem jmpToItselfChangesNothing : Obligations.JmpToItselfChangesNothing := by
  intro s
  rw [exec_jmp, jumpTarget_self, State.setPc, setReg_eq_self s _ _ (reg_pc s).symm]

end Sys2Proof.Machine
end

section
/-! PROOF. The two-operand instructions: what a result into a register, into sr or without flags leaves, the frame of the six that
execute, and the obligations on them (spec/42_two_operand.md, 40_operand_resolution.md R124 to R134, 10_state.md R30, R34). -/

namespace Sys2Proof.Machine

open Sys2Proof.Claims

/-! ## The end state, further -/

section

variable {w : Width} {src : Src} {dst : Dst} {handler : Operands → HandlerResult} {s : State} {r : Word}

theorem reg_twoResult_into {d : Reg} (hpc : d ≠ Reg.pc) (hsr : d ≠ Reg.sr)
    (h : (handler (twoOperands w src (.reg d) s)).result = some r) :
    (twoResult w src (.reg d) handler s).reg d = maskW w r := by
  rw [reg_twoResult_ne hpc hsr, writtenBack_reg h, reg_writeReg_same _ _ hsr]

/-- A register without a result is as the source left it (R126). -/
theorem reg_twoResult_frame {q : Reg} (hwf : src.wf = true) (hpc : q ≠ Reg.pc) (hsr : q ≠ Reg.sr)
    (h : (handler (twoOperands w src dst s)).result = none ∨ dst ≠ .reg q) :
    (twoResult w src dst handler s).reg q = if src = .autoinc q then s.reg q + incBy w else s.reg q := by
  rw [reg_twoResult_ne hpc hsr, reg_writtenBack_ne h, reg_twoState_ne w hwf dst s hpc]

theorem sr_twoResult_of_no_flags (h : (handler (twoOperands w src dst s)).flags = none) :
    (twoResult w src dst handler s).sr = (writtenBack w src dst handler s).sr := by
  rw [twoResult_eq_writtenBack, h, sr_advance, updateFlagsOpt_none]

/-- Without a result for memory no byte changes (R156). -/
theorem mem_twoResult_of_no_store (h : (handler (twoOperands w src dst s)).result = none ∨ dstEA w src dst s = none) :
    (twoResult w src dst handler s).mem = s.mem := by
  rw [mem_twoResult]
  rcases h with hnone | hreg
  · rw [hnone]
    exact mem_twoState w src dst s
  · cases dst with
    | indexed d x => cases hreg
    | reg d =>
      cases (handler (twoOperands w src (.reg d) s)).result with
      | none => exact mem_twoState w src _ s
      | some r => exact (mem_writeReg _ _ _).trans (mem_twoState w src _ s)

/-- A result in memory leaves every byte but its own (R156). -/
theorem readByte_twoResult_ne {ea b : Word} (hea : dstEA w src dst s = some ea) (hne : b ≠ ea)
    (hne' : w = .word → b ≠ ea + 1#16) : (twoResult w src dst handler s).readByte b = s.readByte b := by
  cases hres : (handler (twoOperands w src dst s)).result with
  | none => exact readByte_congr (mem_twoResult_of_no_store (.inl hres)) b
  | some r =>
    rw [readByte_congr (mem_twoResult w src dst handler s)]
    change (writtenBack w src dst handler s).readByte b = _
    rw [writtenBack_mem hea hres, readByte_storeAt_ne _ _ _ _ _ hne hne', readByte_congr (mem_twoState w src dst s)]

/-- A handler's w-bit result without flags, for every kind of destination but a suppressed Advance (R156, R162, R164). -/
theorem resultNoFlags_twoResult {i : Instr} (hi : i.shape = .two w src dst) (hwf : src.wf = true)
    (hadv : (handler (twoOperands w src dst s)).suppressAdvance = false)
    (hflags : (handler (twoOperands w src dst s)).flags = none)
    (h : (handler (twoOperands w src dst s)).result = some r) (hr : maskW w r = r) :
    resultNoFlags i w src dst s (twoResult w src dst handler s) r := by
  have hunder := resultUnderFlags_twoResult hi hwf hadv h hr
  have hsr := sr_twoResult_of_no_flags hflags
  cases dst with
  | reg d =>
    obtain ⟨hreg, hinto, hpast, -⟩ := hunder
    refine ⟨hreg, hinto, hpast, ?_, fun hne => hsr.trans (sr_writtenBack_ne hwf (.inr (mt Dst.reg.inj hne)))⟩
    rintro rfl
    rw [hsr, writtenBack_reg h, writeReg_sr, sr_writeSr_low, hr]
  | indexed d x =>
    obtain ⟨hpc, hval⟩ := hunder
    exact ⟨hpc, hsr.trans (sr_writtenBack_ne hwf (.inr Dst.noConfusion)), hval⟩

/-! ## A result into sr (R30) -/

theorem srReserved_twoResult_into (h : (handler (twoOperands w src (.reg Reg.sr) s)).result = some r) :
    (twoResult w src (.reg Reg.sr) handler s).srReserved = Config.drawReserved s.draws := by
  rw [← draws_twoState w src (.reg Reg.sr) s, ← srReserved_writeSr (twoState w src (.reg Reg.sr) s) (maskW w r),
    ← writeReg_sr, ← writtenBack_reg h]
  apply BitVec.eq_of_getLsbD_eq
  intro k hk
  simp only [State.srReserved, BitVec.getLsbD_extractLsb']
  rw [getLsbD_sr_twoResult (by omega) (by omega)]

theorem getLsbD_sr_writeSr {k : Nat} (hk : k ≤ 8) (t : State) (v : Word) : (t.writeSr v).sr.getLsbD k = v.getLsbD k := by
  have hlow := congrArg (BitVec.getLsbD · k) (sr_writeSr_low t v)
  simpa [BitVec.getLsbD_extractLsb', Nat.lt_succ_of_le hk] using hlow

theorem getLsbD_sr_twoResult_into {k : Nat} (h3 : 3 ≤ k) (h7 : k ≤ 7)
    (h : (handler (twoOperands w src (.reg Reg.sr) s)).result = some r) :
    (twoResult w src (.reg Reg.sr) handler s).sr.getLsbD k = (maskW w r).getLsbD k := by
  rw [getLsbD_sr_twoResult h3 (by omega), writtenBack_reg h, writeReg_sr, getLsbD_sr_writeSr (by omega)]

theorem getLsbD_sr_twoResult_into_of_no_flags {k : Nat} (h8 : k ≤ 8)
    (hflags : (handler (twoOperands w src (.reg Reg.sr) s)).flags = none)
    (h : (handler (twoOperands w src (.reg Reg.sr) s)).result = some r) :
    (twoResult w src (.reg Reg.sr) handler s).sr.getLsbD k = (maskW w r).getLsbD k := by
  rw [sr_twoResult_of_no_flags hflags, writtenBack_reg h, writeReg_sr, getLsbD_sr_writeSr h8]

end

/-! ## The six that execute (R154) -/

theorem instrFault_of_executesTwo {i : Instr} {m : Mnemonic} {w : Width} {src : Src} {dst : Dst} {s : State}
    (hi : i.shape = .two w src dst) (hm : i.mnemonic = some m) (hexec : executesTwo m) (h : oddOperand i s = none) :
    instrFault i s = none := by
  have himp : Mnemonic.implemented m = true := by
    rcases hexec with rfl | rfl | rfl | rfl | rfl | rfl <;> rfl
  simp only [instrFault, hm, h, himp, if_true]
  split
  · cases hi
  · rfl

/-- What the obligations on the six ask of their common end: a handler's result is absent for CMP, its flags for MOV and BIS. -/
theorem twoResult_of_executesTwo {i : Instr} {m : Mnemonic} {w : Width} {src : Src} {dst : Dst} {s t : State}
    (hi : i.shape = .two w src dst) (hm : i.mnemonic = some m) (hexec : executesTwo m) (h : readable i s)
    (ht : exec i s = .next t) :
    ∃ hd : Operands → HandlerResult, src.wf = true ∧ t = twoResult w src dst hd s ∧
      ((hd (twoOperands w src dst s)).result = none ↔ m = .cmp) ∧
      ((hd (twoOperands w src dst s)).flags = none ↔ m = .mov ∨ m = .bis) := by
  obtain ⟨hwf, hodd⟩ := h
  rcases exec_ends hwf (instrFault_of_executesTwo hi hm hexec hodd) ht with
    ⟨m', w', src', dst', hd, hi', hm', hsrc, -, ht', hres, hflags, -⟩ | ⟨_, _, rfl, -⟩ | ⟨_, _, ⟨rfl, -⟩ | ⟨rfl, -⟩, -⟩
  · cases hi.symm.trans hi'
    cases hm.symm.trans hm'
    exact ⟨hd, hsrc, ht', hres, hflags⟩
  all_goals cases hi

theorem result_none_of_not_writesReg {m : Mnemonic} {dst : Dst} {q : Reg} {result : Option Word}
    (hres : result = none ↔ m = .cmp) (h : ¬ writesReg m dst q) : result = none ∨ dst ≠ .reg q := by
  rw [hres]
  exact (not_and_or.mp h).imp_left not_not.mp

/-- Settles O30: the fields of the common end state, one by one. -/
theorem twoOperandFrame : Obligations.TwoOperandFrame := by
  intro i m w src dst s t hi hm hexec h ht
  obtain ⟨hd, hwf, rfl, hres, hflags⟩ := twoResult_of_executesTwo hi hm hexec h ht
  refine ⟨run_twoResult _ _ _ _ _, fun q hpc hsr hno => ?_, fun hno => ⟨?_, fun k hk => ?_⟩, fun hnf hno => ?_,
    fun hno b => ?_, fun ea hea b hne hne' => readByte_twoResult_ne hea hne hne'⟩
  · exact reg_twoResult_frame hwf hpc hsr (result_none_of_not_writesReg hres hno)
  · exact draws_twoResult_ne (result_none_of_not_writesReg hres hno)
  · exact storageBit_twoResult hwf (result_none_of_not_writesReg hres hno) hk
  · rw [sr_twoResult_of_no_flags (hflags.mpr hnf), sr_writtenBack_ne hwf (result_none_of_not_writesReg hres hno)]
  · exact readByte_congr (mem_twoResult_of_no_store (hno.imp_left hres.mpr)) b

theorem maskW_byte_high (v : Word) : (maskW .byte v).extractLsb' 8 8 = 0#8 := by
  apply BitVec.eq_of_toNat_eq
  have := toNat_maskW .byte v
  simp [BitVec.extractLsb'_toNat, this, widthBits, Nat.shiftRight_eq_div_pow]

/-- Settles O31: what is written to the register is masked to the byte. -/
theorem byteResultClearsTheHighByte : Obligations.ByteResultClearsTheHighByte := by
  intro i m src d s t hi hm hexec hcmp hpc hsr h ht
  obtain ⟨hd, -, rfl, hres, -⟩ := twoResult_of_executesTwo hi hm hexec h ht
  obtain ⟨r, hr⟩ := Option.ne_none_iff_exists'.mp (mt hres.mp hcmp)
  rw [reg_twoResult_into hpc hsr hr, maskW_byte_high]

/-! ## MOV, BIS and CMP -/

theorem suppressAdvance_movHandler {dst : Dst} (h : dst ≠ .reg Reg.pc) (w : Width) (src : Src) (s : State) :
    (movHandler (twoOperands w src dst s)).suppressAdvance = false := by
  cases dst with
  | reg d => exact beq_eq_false_iff_ne.mpr fun hd => h (congrArg Dst.reg hd)
  | indexed d x => rfl

/-- Where MOV does not redirect pc, it is an instruction without flags whose result is the source (R180). -/
theorem resultNoFlags_mov {w : Width} {src : Src} {dst : Dst} (s : State) (hwf : src.wf = true) (h : dst ≠ .reg Reg.pc) :
    resultNoFlags (.mov w src dst) w src dst s (twoResult w src dst movHandler s) (srcValue w src s) :=
  resultNoFlags_twoResult rfl hwf (suppressAdvance_movHandler h w src s) rfl rfl (maskW_srcValue w src s)

/-- MOV into pc ends with the source there, not advanced (R163, R180). -/
theorem twoResult_mov_into_pc (w : Width) (src : Src) (s : State) :
    twoResult w src (.reg Reg.pc) movHandler s = (twoState w src (.reg Reg.pc) s).setPc (srcValue w src s) := by
  rw [← maskW_srcValue w src s]
  rfl

/-- Settles O24: a MOV into pc apart, by `resultNoFlags_mov`. -/
theorem movCopiesTheSource : Obligations.MovCopiesTheSource := by
  intro w src dst s h
  have hwf := wf_of_shape_two (i := .mov w src dst) rfl h.1
  refine ⟨_, runTwo_of_readable rfl h _, run_twoResult _ _ _ _ _, ?_⟩
  by_cases hdst : dst = .reg Reg.pc
  · subst hdst
    have hsr : ((twoState w src (.reg Reg.pc) s).setPc (srcValue w src s)).sr = s.sr := by
      rw [← reg_sr, reg_setPc, if_neg (by decide), reg_sr, sr_twoState w hwf]
    rw [twoResult_mov_into_pc]
    exact ⟨fun _ => ⟨pc_setPc _ _, hsr⟩, fun hno => absurd hno (by decide), fun hno => absurd rfl hno⟩
  · have hmov := resultNoFlags_mov s (w := w) hwf hdst
    cases dst with
    | reg d =>
      obtain ⟨hreg, -, hpast, hsr, hsr'⟩ := hmov
      have hpc : d ≠ Reg.pc := fun hd => hdst (congrArg Dst.reg hd)
      exact ⟨fun hne => ⟨hreg hpc hne, hsr' hne⟩, hsr, hpast⟩
    | indexed d x => exact hmov

/-- Settles O28: BIS is an instruction without flags whose result is a w-bit value. -/
theorem bisStoresTheOrAndNoFlags : Obligations.BisStoresTheOrAndNoFlags := by
  intro w src dst s h
  have hwf := wf_of_shape_two (i := .bis w src dst) rfl h.1
  exact ⟨_, runTwo_of_readable rfl h _, run_twoResult _ _ _ _ _,
    resultNoFlags_twoResult rfl hwf rfl rfl rfl (maskW_srcValue_or w src dst s)⟩

/-- Settles O27: CMP's handler has SUB's flags and no result. -/
theorem cmpSetsTheFlagsOfSubAndWritesNothing : Obligations.CmpSetsTheFlagsOfSubAndWritesNothing := by
  intro w src dst s h
  have hwf := wf_of_shape_two (i := .cmp w src dst) rfl h.1
  have ht : flagsAre (twoResult w src dst (cmpHandler w) s) _ _ _ _ := flagsAre_twoResult rfl
  have hu : flagsAre (twoResult w src dst (subHandler w) s) _ _ _ _ := flagsAre_twoResult rfl
  obtain ⟨hc, hz, hn, hv⟩ := hu
  refine ⟨_, _, runTwo_of_readable rfl h _, runTwo_of_readable (i := .sub w src dst) rfl h _, ?_,
    mem_twoResult_of_no_store (.inl rfl), run_twoResult _ _ _ _ _, pc_twoResult_past rfl hwf rfl (.inl rfl),
    fun q hpc hsr => reg_twoResult_frame hwf hpc hsr (.inl rfl), fun k hk => storageBit_twoResult hwf (.inl rfl) hk⟩
  rw [hc, hz, hn, hv]
  exact ht

/-! ## A whole write of sr (R30) -/

section

variable {i : Instr} {w : Width} {src : Src} {handler : Operands → HandlerResult} {s : State} {r : Word}

theorem runTwo_into_sr (hwf : src.wf = true) (hsrc : oddAt w (srcEA src s) = none)
    (h : (handler (twoOperands w src (.reg Reg.sr) s)).result = some r) (hr : maskW w r = r) :
    ∃ t, runTwo i w src (.reg Reg.sr) handler s = .next t ∧ t.srReserved = Config.drawReserved s.draws ∧
      t.draws = s.draws + 1 ∧ ∀ k, 3 ≤ k ∧ k ≤ 7 → t.sr.getLsbD k = r.getLsbD k :=
  ⟨_, runTwo_into_register hwf hsrc, srReserved_twoResult_into h, draws_twoResult_into h,
    fun k hk => by rw [getLsbD_sr_twoResult_into hk.1 hk.2 h, hr]⟩

theorem runTwo_into_sr_of_no_flags (hwf : src.wf = true) (hsrc : oddAt w (srcEA src s) = none)
    (hflags : (handler (twoOperands w src (.reg Reg.sr) s)).flags = none)
    (h : (handler (twoOperands w src (.reg Reg.sr) s)).result = some r) (hr : maskW w r = r) :
    ∃ t, runTwo i w src (.reg Reg.sr) handler s = .next t ∧ t.srReserved = Config.drawReserved s.draws ∧
      t.draws = s.draws + 1 ∧ ∀ k, k ≤ 8 → t.sr.getLsbD k = r.getLsbD k :=
  ⟨_, runTwo_into_register hwf hsrc, srReserved_twoResult_into h, draws_twoResult_into h,
    fun k hk => by rw [getLsbD_sr_twoResult_into_of_no_flags hk hflags h, hr]⟩

end

/-- Settles O20: the five write a w-bit result to sr, which MOV and BIS leave as written and the others' flags change in bits 8
and 2:0. -/
theorem wholeWriteDrawsReservedBits : Obligations.WholeWriteDrawsReservedBits := by
  intro w src s hwf hsrc a b draws
  have hadd : (addHandler w (twoOperands w src (.reg Reg.sr) s)).result = some (maskW w (a + b)) :=
    congrArg some (arithFlags_result w _ _)
  have hsub : (subHandler w (twoOperands w src (.reg Reg.sr) s)).result = some (maskW w (b - a)) :=
    congrArg some ((arithFlags_result w _ _).trans (maskW_negW_add w _ _))
  exact ⟨runTwo_into_sr_of_no_flags hwf hsrc rfl rfl (maskW_srcValue w src s),
    runTwo_into_sr hwf hsrc hadd (maskW_maskW w _),
    runTwo_into_sr hwf hsrc hsub (maskW_maskW w _),
    runTwo_into_sr_of_no_flags hwf hsrc rfl rfl (maskW_srcValue_or w src _ s),
    runTwo_into_sr hwf hsrc rfl (maskW_srcValue_xor w src _ s)⟩

/-! ## Operands in the registers' several roles (R124 to R134) -/

theorem oddAt_some_eq_none {w : Width} {a : Word} (h : w = .byte ∨ isEven a = true) : oddAt w (some a) = none := by
  rcases h with rfl | heven
  · rfl
  · cases w
    · exact if_pos heven
    · rfl

/-- Settles O21: the register MOV reads through keeps its increment unless the result goes there. -/
theorem autoincrementReadsThenMoves : Obligations.AutoincrementReadsThenMoves := by
  intro w r d s hpc hsr hcg hdpc hdsr heven
  have hwf : (Src.autoinc r).wf = true := by simp [Src.wf, hpc, hsr, hcg]
  obtain ⟨hreg, -, hpast, -⟩ := resultNoFlags_mov s (w := w) hwf (mt Dst.reg.inj hdpc)
  refine ⟨_, runTwo_into_register hwf (oddAt_some_eq_none heven), hreg hdpc hdsr, fun hne => ?_, hpast hdpc⟩
  rw [reg_twoResult_frame hwf hpc hsr (.inr (mt Dst.reg.inj (Ne.symm hne))), if_pos rfl]
  cases w <;> rfl

/-- Settles O22: the closed form of the source's address is that base and the offset. -/
theorem indexedSourceAddress : Obligations.IndexedSourceAddress := by
  intro w r d x s hcg hdpc hdsr base heven
  have hwf : (Src.indexed r x).wf = true := by simp [Src.wf, hcg]
  have hbase : (if r = Reg.sr then 0#16 else if r = Reg.pc then s.pc + 2#16 else s.reg r) = base := by
    by_cases hsr : r = Reg.sr
    · subst hsr; rfl
    · simp only [base, hsr, if_false]
  have hea : srcEA (.indexed r x) s = some (base + x) := by rw [srcEA, hbase]
  have hval : srcValue w (.indexed r x) s = s.valueAt w (base + x) := by rw [srcValue, hbase]
  obtain ⟨hreg, -, hpast, -⟩ := resultNoFlags_mov s (w := w) hwf (mt Dst.reg.inj hdpc)
  refine ⟨_, runTwo_into_register hwf (hea ▸ oddAt_some_eq_none heven), (hreg hdpc hdsr).trans hval, hpast hdpc⟩

/-- MOV.B from memory to memory copies the byte. -/
theorem exec_mov_byte_to_memory {src : Src} {q : Reg} {x a ea : Word} {s : State} (hwf : src.wf = true)
    (hval : srcValue .byte src s = s.valueAt .byte a) (hea : dstEA .byte src (.indexed q x) s = some ea) :
    ∃ t, exec (.mov .byte src (.indexed q x)) s = .next t ∧ t.readByte ea = s.readByte a := by
  have hread : readable (.mov .byte src (.indexed q x)) s := ⟨by rw [Instr.wf, hwf]; rfl, rfl⟩
  obtain ⟨-, -, hmem⟩ := resultNoFlags_mov s (w := .byte) (dst := .indexed q x) hwf Dst.noConfusion
  refine ⟨_, runTwo_of_readable rfl hread _, ?_⟩
  have hbyte := congrArg (BitVec.setWidth 8) ((hmem ea hea).trans hval)
  simpa [State.valueAt] using hbyte

/-- Settles O23: the closed forms of a destination's address and value are over the registers after the source. -/
theorem destinationSeesTheSourceSideEffects : Obligations.DestinationSeesTheSourceSideEffects := by
  intro r x y s hpc hsr hcg
  have hwf : (Src.autoinc r).wf = true := by simp [Src.wf, hpc, hsr, hcg]
  refine ⟨exec_mov_byte_to_memory hwf rfl ?_, exec_mov_byte_to_memory rfl rfl ?_, fun heven => ?_⟩
  · simp [dstEA, State.regAfterSrc, hpc, hsr, incBy]
  · simp [dstEA, Src.ext, extBytes, BitVec.add_assoc]
  · have hdst : dstValue .word (.autoinc r) (.reg r) s = s.reg r + 2#16 := by
      simp [dstValue, State.regAfterSrc, hpc, incBy, maskW]
    refine ⟨_, runTwo_into_register hwf (oddAt_some_eq_none (.inr heven)), ?_⟩
    rw [← hdst]
    exact (reg_twoResult_into hpc hsr rfl).trans (congrArg (maskW .word) (arithFlags_result .word _ _))

end Sys2Proof.Machine
end

section
/-! PROOF. The storage bits of sr have no effect (spec/10_state.md R29): every operation of a step keeps two states the same but
for those bits, so an instruction that does not name sr as an operand does. -/

namespace Sys2Proof.Machine

open Sys2Proof.Claims

/-! ## Operations keep states the same but for the storage bits -/

section

variable {s s' : State}

theorem sameButStorage_pc (h : sameButStorage s s') : s.pc = s'.pc := h.1 Reg.pc (by decide)

theorem sameButStorage_setReg (h : sameButStorage s s') {r : Reg} (hr : r ≠ Reg.sr) (v : Word) :
    sameButStorage (s.setReg r v) (s'.setReg r v) := by
  obtain ⟨hreg, hmem, hrun, hdraws, hbits⟩ := h
  refine ⟨fun q hq => ?_, hmem, hrun, hdraws, fun k hk => ?_⟩
  · rw [reg_setReg, reg_setReg, hreg q hq]
  · rw [← reg_sr, ← reg_sr, reg_setReg_ne s v hr.symm, reg_setReg_ne s' v hr.symm]
    exact hbits k hk

theorem sameButStorage_bumpPc (h : sameButStorage s s') : sameButStorage s.bumpPc s'.bumpPc := by
  rw [State.bumpPc, State.bumpPc, sameButStorage_pc h]
  exact sameButStorage_setReg h (by decide) _

theorem sameButStorage_advance (h : sameButStorage s s') (b : Bool) : sameButStorage (s.advance b) (s'.advance b) := by
  cases b
  · exact sameButStorage_bumpPc h
  · exact h

theorem sameButStorage_jumpBy (h : sameButStorage s s') (off : BitVec 10) :
    sameButStorage (s.jumpBy off) (s'.jumpBy off) := by
  rw [State.jumpBy, State.jumpBy, sameButStorage_pc h]
  exact sameButStorage_setReg h (by decide) _

theorem sameButStorage_storeAt (h : sameButStorage s s') (w : Width) (a v : Word) :
    sameButStorage (storeAt w s a v) (storeAt w s' a v) := by
  obtain ⟨hreg, hmem, hrun, hdraws, hbits⟩ := h
  simp only [sameButStorage, ← reg_sr, reg_storeAt, run_storeAt, draws_storeAt]
  exact ⟨hreg, mem_storeAt_congr hmem w a v, hrun, hdraws, hbits⟩

theorem sameButStorage_takeFault (h : sameButStorage s s') (x : FaultRecord) :
    sameButStorage (s.takeFault x) (s'.takeFault x) := by
  obtain ⟨hreg, hmem, -, hdraws, hbits⟩ := h
  exact ⟨hreg, hmem, rfl, hdraws, hbits⟩

/-- A flag write gives its bits the same values and leaves the storage bits (R28). -/
theorem sameButStorage_updateFlagsOpt (h : sameButStorage s s') (f : Option FlagValues) :
    sameButStorage (s.updateFlagsOpt f) (s'.updateFlagsOpt f) := by
  cases f with
  | none => exact h
  | some f =>
    obtain ⟨hreg, hmem, hrun, hdraws, hbits⟩ := h
    refine ⟨fun q hq => ?_, hmem, hrun, hdraws, fun k hk => ?_⟩
    · rw [reg_updateFlagsOpt_ne _ _ hq, reg_updateFlagsOpt_ne _ _ hq, hreg q hq]
    · simp only [updateFlagsOpt_some, getLsbD_sr_updateFlags, hbits k hk]

theorem flagZ_of_sameButStorage (h : sameButStorage s s') : s.flagZ = s'.flagZ :=
  h.2.2.2.2 bitZ (by simp [storageBit, bitZ])

/-! ## Operands that are not sr are the same (R123 to R134) -/

variable {w : Width} {src : Src} {dst : Dst}

theorem regAfterSrc_of_sameButStorage (h : sameButStorage s s') {r : Reg} (hr : r ≠ Reg.sr) :
    s.regAfterSrc w src r = s'.regAfterSrc w src r := by
  simp only [State.regAfterSrc, sameButStorage_pc h, h.1 r hr]

theorem srcEA_of_sameButStorage (h : sameButStorage s s') (hwf : src.wf = true) : srcEA src s = srcEA src s' := by
  cases src with
  | reg | imm | const => rfl
  | indexed r x =>
    by_cases hr : r = Reg.sr
    · simp only [srcEA, hr, if_true]
    · simp only [srcEA, sameButStorage_pc h, h.1 r hr]
  | indirect r | autoinc r =>
    have hr : r ≠ Reg.sr := by rintro rfl; cases hwf
    rw [srcEA, srcEA, h.1 r hr]

theorem dstEA_of_sameButStorage (h : sameButStorage s s') : dstEA w src dst s = dstEA w src dst s' := by
  cases dst with
  | reg r => rfl
  | indexed r x =>
    by_cases hr : r = Reg.sr
    · simp only [dstEA, hr, if_true]
    · simp only [dstEA, sameButStorage_pc h, regAfterSrc_of_sameButStorage h hr]

theorem srcValue_of_srcEA {ea : Word} (h : srcEA src s = some ea) : srcValue w src s = s.valueAt w ea := by
  cases src <;> cases h <;> rfl

theorem dstValue_of_dstEA {ea : Word} (h : dstEA w src dst s = some ea) : dstValue w src dst s = s.valueAt w ea := by
  cases dst <;> cases h
  rfl

theorem srcValue_of_sameButStorage (h : sameButStorage s s') (hwf : src.wf = true) (hsr : src ≠ .reg Reg.sr) :
    srcValue w src s = srcValue w src s' := by
  have hea := srcEA_of_sameButStorage h hwf
  cases src with
  | imm | const => rfl
  | reg r => rw [srcValue, srcValue, h.1 r (mt (congrArg Src.reg) hsr)]
  | indexed | indirect | autoinc =>
    rw [srcValue_of_srcEA hea, srcValue_of_srcEA (s := s') rfl, valueAt_congr h.2.1]

theorem dstValue_of_sameButStorage (h : sameButStorage s s') (hsr : dst ≠ .reg Reg.sr) :
    dstValue w src dst s = dstValue w src dst s' := by
  have hea := dstEA_of_sameButStorage h (w := w) (src := src) (dst := dst)
  cases dst with
  | reg r => rw [dstValue, dstValue, regAfterSrc_of_sameButStorage h (mt (congrArg Dst.reg) hsr)]
  | indexed => rw [dstValue_of_dstEA hea, dstValue_of_dstEA (s := s') rfl, valueAt_congr h.2.1]

theorem twoTarget_of_sameButStorage (h : sameButStorage s s') : twoTarget w src dst s = twoTarget w src dst s' := by
  cases dst with
  | reg r => rfl
  | indexed r x => simp only [twoTarget, dstEA_of_sameButStorage h]

theorem sameButStorage_srcState (h : sameButStorage s s') (hwf : src.wf = true) :
    sameButStorage (srcState w src s) (srcState w src s') := by
  cases src with
  | reg | indirect | const => exact h
  | indexed | imm => exact sameButStorage_bumpPc h
  | autoinc r =>
    have hr : r ≠ Reg.sr := by rintro rfl; cases hwf
    rw [srcState, srcState, h.1 r hr]
    exact sameButStorage_setReg h hr _

theorem sameButStorage_twoState (h : sameButStorage s s') (hwf : src.wf = true) :
    sameButStorage (twoState w src dst s) (twoState w src dst s') := by
  cases dst with
  | reg => exact sameButStorage_srcState h hwf
  | indexed => exact sameButStorage_bumpPc (sameButStorage_srcState h hwf)

/-! ## The end states are the same -/

theorem sameButStorage_placeResult (h : sameButStorage s s') {target : Target} (hsr : target ≠ .reg Reg.sr)
    (result : Option Word) : sameButStorage (placeResult w target result s) (placeResult w target result s') := by
  cases result with
  | none => exact h
  | some r =>
    cases target with
    | none => exact h
    | mem ea => exact sameButStorage_storeAt h w ea r
    | reg d =>
      have hd : d ≠ Reg.sr := mt (congrArg Target.reg) hsr
      rw [placeResult, placeResult, writeReg_ne _ _ hd, writeReg_ne _ _ hd]
      exact sameButStorage_setReg h hd _

/-- A handler sees the operands only, not the pending state; each of the six does so by definition (R155). -/
def IgnoresState (handler : Operands → HandlerResult) : Prop :=
  ∀ (ops : Operands) (u : State), handler { ops with state := u } = handler ops

theorem handler_of_sameButStorage {handler : Operands → HandlerResult} (hh : IgnoresState handler)
    (h : sameButStorage s s') (hwf : src.wf = true) (hsrc : src ≠ .reg Reg.sr) (hdst : dst ≠ .reg Reg.sr) :
    handler (twoOperands w src dst s) = handler (twoOperands w src dst s') := by
  rw [← hh (twoOperands w src dst s) (twoState w src dst s')]
  simp only [twoOperands, srcValue_of_sameButStorage h hwf hsrc, dstValue_of_sameButStorage h hdst,
    twoTarget_of_sameButStorage h]

theorem sameButStorage_twoResult {handler : Operands → HandlerResult} (hh : IgnoresState handler)
    (h : sameButStorage s s') (hwf : src.wf = true) (hsrc : src ≠ .reg Reg.sr) (hdst : dst ≠ .reg Reg.sr) :
    sameButStorage (twoResult w src dst handler s) (twoResult w src dst handler s') := by
  rw [twoResult_eq_writtenBack, twoResult_eq_writtenBack, writtenBack, writtenBack,
    handler_of_sameButStorage hh h hwf hsrc hdst, twoTarget_of_sameButStorage h]
  refine sameButStorage_advance (sameButStorage_updateFlagsOpt (sameButStorage_placeResult ?_ ?_ _) _) _
  · exact sameButStorage_twoState h hwf
  · exact mt eq_reg_of_twoTarget hdst

theorem callPushAddr_of_sameButStorage (h : sameButStorage s s') (w : Width) (op : Src) :
    callPushAddr w op s = callPushAddr w op s' := by
  rw [callPushAddr, callPushAddr, regAfterSrc_of_sameButStorage h (by decide)]

theorem sameButStorage_callResult {op : Src} (h : sameButStorage s s') (hwf : op.wf = true) (hsr : op ≠ .reg Reg.sr) :
    sameButStorage (callResult w op s) (callResult w op s') := by
  have hst := sameButStorage_srcState (w := w) h hwf
  simp only [callResult, sp_srcState w hwf, srcValue_of_sameButStorage h hwf hsr, callPushAddr_of_sameButStorage h,
    sameButStorage_pc hst]
  exact sameButStorage_setReg (sameButStorage_storeAt (sameButStorage_setReg hst (by decide) _) .word _ _) (by decide) _

/-! ## The faults are the same -/

theorem oddOperand_of_sameButStorage {i : Instr} (h : sameButStorage s s') (hwf : i.wf = true) :
    oddOperand i s = oddOperand i s' := by
  unfold oddOperand
  cases hi : i.shape with
  | two w src dst => simp only [srcEA_of_sameButStorage h (wf_of_shape_two hi hwf), dstEA_of_sameButStorage h]
  | one w op => simp only [srcEA_of_sameButStorage h (wf_of_shape_one hi hwf)]
  | none => rfl

theorem instrFault_of_sameButStorage {i : Instr} (h : sameButStorage s s') (hwf : i.wf = true) :
    instrFault i s = instrFault i s' := by
  simp only [instrFault, oddOperand_of_sameButStorage h hwf, State.undefinedRecord, State.alignmentRecord,
    State.unimplementedRecord, sameButStorage_pc h, callPushAddr_of_sameButStorage h]

end

/-- Settles O18: the two states raise the same fault, or the instruction is one of those that end, in states the same again. -/
theorem storageBitsHaveNoEffect : Obligations.StorageBitsHaveNoEffect := by
  intro i s s' hwf halone h
  have hfault := instrFault_of_sameButStorage h hwf
  cases hf : instrFault i s with
  | some x => exact ⟨_, _, exec_of_instrFault hwf hf, exec_of_instrFault hwf (hfault ▸ hf), sameButStorage_takeFault h x⟩
  | none =>
    have hodd := oddOperand_of_instrFault hf
    have hread : readable i s := ⟨hwf, hodd⟩
    have hread' : readable i s' := ⟨hwf, oddOperand_of_instrFault (hfault ▸ hf)⟩
    cases i with
    | mov w src dst | add w src dst | sub w src dst | cmp w src dst | bis w src dst | xor w src dst =>
      exact ⟨_, _, runTwo_of_readable rfl hread _, runTwo_of_readable rfl hread' _,
        sameButStorage_twoResult (fun _ _ => rfl) h (wf_of_shape_two rfl hwf) halone.1 halone.2⟩
    | call w op =>
      have hpush : isEven (callPushAddr w op s) = true := by
        simpa [instrFault, Instr.mnemonic, hodd, Mnemonic.implemented] using hf
      exact ⟨_, _, exec_call_of_readable hread hpush,
        exec_call_of_readable hread' (callPushAddr_of_sameButStorage h w op ▸ hpush), sameButStorage_callResult h hwf halone⟩
    | jeq off =>
      refine ⟨_, _, rfl, rfl, sameButStorage_bumpPc ?_⟩
      rw [flagZ_of_sameButStorage h]
      split
      · exact sameButStorage_jumpBy h off
      · exact h
    | jmp off => exact ⟨_, _, rfl, rfl, sameButStorage_bumpPc (sameButStorage_jumpBy h off)⟩
    | _ => simp [instrFault, Instr.mnemonic, hodd, Mnemonic.implemented] at hf

end Sys2Proof.Machine
end

section
/-! PROOF. The obligations on the loader and on placing an instruction (spec/20_memory.md R64, 70_reset_and_hazards.md R271). -/

namespace Sys2Proof.Machine

open Sys2Proof.Claims

/-! ## What valid segments leave in memory (R64) -/

theorem covers_disjoint {g h : Segment} (hd : g.disjoint h = true) {a : Nat} (hg : covers g a) : ¬ covers h a :=
  Segment.disjoint_iff.mp hd a hg

section

variable {image : List Byte} {gs : List Segment}

/-- A byte that no segment covers is as before. -/
theorem get_loadSegments_of_not_covered (hr : ∀ g ∈ gs, Segment.inRange image g = true) {a : Nat}
    (ha : ∀ g ∈ gs, ¬ covers g a) (m : Memory) : Memory.get (loadSegments image gs m) a = Memory.get m a := by
  induction gs generalizing m with
  | nil => rfl
  | cons g rest ih =>
    obtain ⟨hg, hrest⟩ := List.forall_mem_cons.mp hr
    obtain ⟨hag, harest⟩ := List.forall_mem_cons.mp ha
    rw [loadSegments, List.foldl_cons]
    exact (ih hrest harest _).trans ((get_loadSegment image m hg a).trans (if_neg hag))

/-- A byte that a segment covers is that segment's image byte, for the others do not cover it. -/
theorem get_loadSegments_of_covers (hr : ∀ g ∈ gs, Segment.inRange image g = true)
    (hd : gs.Pairwise fun g h => g.disjoint h = true) {g : Segment} (hg : g ∈ gs) {a : Nat} (ha : covers g a) (m : Memory) :
    Memory.get (loadSegments image gs m) a = image.getD (g.offset + (a - g.address)) 0#8 := by
  induction gs generalizing m with
  | nil => cases hg
  | cons g' rest ih =>
    obtain ⟨hg', hrest⟩ := List.forall_mem_cons.mp hr
    obtain ⟨hd', hdrest⟩ := List.pairwise_cons.mp hd
    rw [loadSegments, List.foldl_cons]
    rcases List.mem_cons.mp hg with rfl | hmem
    · have hothers : ∀ h ∈ rest, ¬ covers h a := fun h hh => covers_disjoint (hd' h hh) ha
      exact (get_loadSegments_of_not_covered hrest hothers _).trans ((get_loadSegment image m hg' a).trans (if_pos ha))
    · exact ih hrest hdrest hmem _

end

/-! ## The obligations on launch -/

/-- Settles O54: a valid launch is reset over the loaded memory, with pc from the vector. -/
theorem launchLoadsSegmentsAndVector : Obligations.LaunchLoadsSegmentsAndVector := by
  intro image gs hr hd
  have hr' := List.all_eq_true.mp hr
  refine ⟨_, launch_of_valid hr hd, rfl, wf_loadSegments image hr rfl, pc_setPc _ _, fun r hne => ?others,
    fun g hg k hk => ?covered, fun a ha => ?uncovered⟩
  case others =>
    rw [reg_setPc, if_neg hne]
    exact reg_reset r
  case covered =>
    have hrange := Segment.inRange_iff.mp (hr' g hg)
    have hcov : covers g (g.address + k) := ⟨Nat.le_add_right _ _, Nat.add_lt_add_left hk _⟩
    have hbyte := get_loadSegments_of_covers hr' (segmentsDisjoint_iff.mp hd) hg hcov []
    rw [Nat.add_sub_cancel_left] at hbyte
    rw [readByte_setPc, State.readByte, BitVec.toNat_ofNat, Nat.mod_eq_of_lt (by omega), hbyte]
  case uncovered => exact get_loadSegments_of_not_covered hr' ha []

/-- Settles O55: a segment out of range fails the first test, a shared address the second. -/
theorem invalidLaunchIsRefused : Obligations.InvalidLaunchIsRefused := by
  intro image gs
  constructor
  · rintro ⟨g, hg, hout⟩
    have hr : ¬ gs.all (Segment.inRange image) = true := fun hall => by
      have hrange := Segment.inRange_iff.mp (List.all_eq_true.mp hall g hg)
      omega
    rw [launch, if_neg hr]
  · rintro hrange ⟨g, h, a, hsub, hg, hh⟩
    have hr : gs.all (Segment.inRange image) = true :=
      List.all_eq_true.mpr fun g hg => Segment.inRange_iff.mpr (hrange g hg)
    have hd : ¬ segmentsDisjoint gs = true := fun hd => by
      have hgh : g.disjoint h = true := by simpa using List.Pairwise.sublist hsub (segmentsDisjoint_iff.mp hd)
      exact covers_disjoint hgh hg hh
    rw [launch, if_pos hr, if_neg hd]

theorem Segment.disjoint_symm {g h : Segment} (hd : g.disjoint h = true) : h.disjoint g = true :=
  Segment.disjoint_iff.mpr fun _ hh hg => Segment.disjoint_iff.mp hd _ hg hh

/-- Two orders of a valid list load the same memory: canonical memories that read the same are equal. -/
theorem loadSegments_perm {image : List Byte} {xs ys : List Segment} (hp : xs.Perm ys)
    (hx : xs.all (Segment.inRange image) = true) (hy : ys.all (Segment.inRange image) = true)
    (hdx : segmentsDisjoint xs = true) (hdy : segmentsDisjoint ys = true) :
    loadSegments image xs [] = loadSegments image ys [] := by
  refine Memory.ext_of_wfFrom (wf_loadSegments image hx rfl) (wf_loadSegments image hy rfl) fun a => ?_
  have hx' := List.all_eq_true.mp hx
  have hy' := List.all_eq_true.mp hy
  by_cases hcov : ∃ g ∈ xs, covers g a
  · obtain ⟨g, hg, ha⟩ := hcov
    rw [get_loadSegments_of_covers hx' (segmentsDisjoint_iff.mp hdx) hg ha,
      get_loadSegments_of_covers hy' (segmentsDisjoint_iff.mp hdy) (hp.mem_iff.mp hg) ha]
  · have hnot : ∀ g ∈ xs, ¬ covers g a := fun g hg ha => hcov ⟨g, hg, ha⟩
    rw [get_loadSegments_of_not_covered hx' hnot,
      get_loadSegments_of_not_covered hy' fun g hg => hnot g (hp.mem_iff.mpr hg)]

/-- Settles O56: both orders are valid launches of the same memory. -/
theorem segmentOrderDoesNotMatter : Obligations.SegmentOrderDoesNotMatter := by
  intro image xs ys hp hx hdx
  have hy : ys.all (Segment.inRange image) = true :=
    List.all_eq_true.mpr fun g hg => List.all_eq_true.mp hx g (hp.mem_iff.mpr hg)
  have hdy : segmentsDisjoint ys = true :=
    segmentsDisjoint_iff.mpr (hp.pairwise (segmentsDisjoint_iff.mp hdx) Segment.disjoint_symm)
  rw [launch_of_valid hx hdx, launch_of_valid hy hdy, loadSegments_perm hp hx hy hdx hdy]

/-! ## Placing an instruction (log 5) -/

/-- Where the words are placed: pc where the fetch accepts it. -/
def placedPc (s : State) : Word := if s.fetchable then s.pc else placeAddress

/-- The state that `placeWords` stores the words in. -/
def placeBase (s : State) : State := { (if s.fetchable then s else s.setPc placeAddress) with run := .running }

theorem pc_placeBase (s : State) : (placeBase s).pc = placedPc s := by
  change (if s.fetchable = true then s else s.setPc placeAddress).pc = _
  rw [placedPc]
  split
  · rfl
  · exact pc_setPc s _

theorem placeWords_eq (s : State) (w0 w1 w2 : Word) :
    s.placeWords w0 w1 w2 = (((placeBase s).setWordAt (placedPc s) w0).setWordAt (placedPc s + 2#16) w1).setWordAt
      (placedPc s + 4#16) w2 := by
  rw [← pc_placeBase]
  rfl

theorem pc_placeWords (s : State) (w0 w1 w2 : Word) : (s.placeWords w0 w1 w2).pc = placedPc s := by
  rw [placeWords_eq, ← reg_pc, reg_setWordAt, reg_setWordAt, reg_setWordAt, reg_pc, pc_placeBase]

theorem fetchable_placedPc (s : State) : isEven (placedPc s) = true ∧ ¬ placedPc s ≤ Config.ioLimit := by
  rw [placedPc]
  split
  · next hf =>
    obtain ⟨heven, hio⟩ := Bool.and_eq_true_iff.mp hf
    exact ⟨heven, BitVec.not_le.mpr (of_decide_eq_true hio)⟩
  · decide

/-- Words two apart do not overlap. -/
theorem wordAt_setWordAt_of_apart {a b : Word} (s : State) (v : Word) (h : a ≠ b) (h1 : a ≠ b + 1#16) (h2 : a + 1#16 ≠ b) :
    (s.setWordAt b v).wordAt a = s.wordAt a := by
  have h3 : a + 1#16 ≠ b + 1#16 := by bv_omega
  simp only [State.wordAt, readByte_setWordAt, h, h1, h2, h3, if_false]

theorem instrAt_placeWords (s : State) (w0 w1 w2 : Word) :
    (s.placeWords w0 w1 w2).instrAt (placedPc s) = decodeWords w0 w1 w2 := by
  rw [placeWords_eq]
  generalize placedPc s = p
  simp only [State.instrAt, wordAt_setWordAt]
  rw [wordAt_setWordAt_of_apart (a := p) (b := p + 4#16), wordAt_setWordAt_of_apart (a := p) (b := p + 2#16),
    wordAt_setWordAt_of_apart (a := p + 2#16) (b := p + 4#16), wordAt_setWordAt, wordAt_setWordAt] <;> bv_omega

/-- The next step runs what was placed, from any state. -/
theorem step_placeWords (s : State) (w0 w1 w2 : Word) :
    step (s.placeWords w0 w1 w2) = exec (decodeWords w0 w1 w2) (s.placeWords w0 w1 w2) := by
  have hpc := pc_placeWords s w0 w1 w2
  obtain ⟨heven, hio⟩ := fetchable_placedPc s
  rw [step_of_fetchable rfl (hpc ▸ hio) (hpc ▸ heven), hpc, instrAt_placeWords]

/-- Settles O58: a 16-bit word is placed as itself, over two zero words. -/
theorem placedWordRunsNext : Obligations.PlacedWordRunsNext := by
  intro w
  have hplaced : State.reset.withFetchWord 16 w.toNat = State.reset.placeWords w 0#16 0#16 := by
    have hw := w.isLt
    simp only [State.withFetchWord, Nat.mod_eq_of_lt hw, BitVec.ofNat_toNat, BitVec.setWidth_eq, Nat.div_eq_of_lt hw,
      Nat.div_eq_of_lt (hw.trans (by decide : 2 ^ 16 < 2 ^ 32))]
  rw [hplaced, step_placeWords]

end Sys2Proof.Machine
end
